-- ==== Sys2Proof/Word.lean ====
section
/-!
DEFINITION. The data types the core computes with: bytes, 32-bit words, an 8-word chaining state and a
64-byte block.

Rules: `00_scope.md` R7 (WORD = 32, NSTATE = 8, BLOCK = 64), R8 (bit 31 is the most significant bit),
R9 (`xor`, `&`, `|`, `~`, `+` on 32-bit words: the operators `^^^`, `&&&`, `|||`, `~~~`, `+` of `BitVec 32`,
whose sum is taken modulo 2^32), R11 (a byte is 8 bits).
-/

namespace Sys2Proof

/-- A state, schedule or working word: 32 bits, unsigned (R7, R8). -/
abbrev Word := BitVec 32

/-- A byte (R11). -/
abbrev Byte := BitVec 8

/-- A MessageBlock: "exactly 64 bytes" (R7, R80). -/
abbrev Block := Vector Byte 64

/-- A ChainingState: "exactly 8 unsigned 32-bit words" (R21), word `i` in the field `v<i>`. -/
structure Chain where
  v0 : Word
  v1 : Word
  v2 : Word
  v3 : Word
  v4 : Word
  v5 : Word
  v6 : Word
  v7 : Word
deriving DecidableEq, Repr

end Sys2Proof
end

