-- ==== Sys2Proof/Machine/Bytes.lean ====
section
/-!
DEFINITION. Byte order: the big-endian helpers of `00_scope.md` R12, the left rotation of R10 and the reading of a
64-byte string as a block. Every multi-byte quantity of the core is big-endian (`20_memory.md` R41, R42).
-/

namespace Sys2Proof.Machine

/-- `rotl(x, n)`, the left rotation of a word by `n` places, `0 ≤ n ≤ 31` (R10; PRESUMED, log entry 9: the spec marks the
definition as from general knowledge). -/
def rotl (x : Word) (n : Nat) : Word := (x <<< n) ||| (x >>> (32 - n))

/-- `BE32dec`: the first byte is the most significant (R12). -/
def be32dec (b0 b1 b2 b3 : Byte) : Word := b0 ++ b1 ++ b2 ++ b3

/-- `BE32enc`: bytes `w[31:24], w[23:16], w[15:8], w[7:0]` (R12). -/
def be32enc (w : Word) : List Byte :=
  [w.extractLsb' 24 8, w.extractLsb' 16 8, w.extractLsb' 8 8, w.extractLsb' 0 8]

/-- `BE64enc`: bytes `n[63:56]` down to `n[7:0]` (R12). -/
def be64enc (n : BitVec 64) : List Byte :=
  [n.extractLsb' 56 8, n.extractLsb' 48 8, n.extractLsb' 40 8, n.extractLsb' 32 8,
   n.extractLsb' 24 8, n.extractLsb' 16 8, n.extractLsb' 8 8, n.extractLsb' 0 8]

/-- The word at byte offset `a` of a byte string, `BE32dec(s[a..a+3])`. -/
def wordAt (s : List Byte) (a : Nat) : Word :=
  be32dec (s.getD a 0) (s.getD (a + 1) 0) (s.getD (a + 2) 0) (s.getD (a + 3) 0)

/-- The eight words of a chaining state in order, word 0 first. -/
def chainWords (v : Chain) : List Word := [v.v0, v.v1, v.v2, v.v3, v.v4, v.v5, v.v6, v.v7]

/-- `StateDec`: word `i` of a 32-byte state image is at byte offset `4i` (R12, R73). -/
def stateDec (s : List Byte) : Chain where
  v0 := wordAt s 0
  v1 := wordAt s 4
  v2 := wordAt s 8
  v3 := wordAt s 12
  v4 := wordAt s 16
  v5 := wordAt s 20
  v6 := wordAt s 24
  v7 := wordAt s 28

/-- `StateEnc`: "word i at byte offset 4i"; the layout of a Digest and of every state image (R12, R133). -/
def stateEnc (v : Chain) : List Byte := (chainWords v).flatMap be32enc

/-- A 64-byte string as a MessageBlock: byte `i` of the string is byte `i` of the block (R73). Every caller hands it
exactly 64 bytes (log entry 16). -/
def blockOf (s : List Byte) : Block := Vector.ofFn fun i => s.getD i.val 0

end Sys2Proof.Machine
end

