-- ==== Sys2Proof/Config.lean ====
section
/-!
DEFINITION. The parameters the spec leaves open, as configuration fields, and the values this hardware takes.

Rules: `00_scope.md` R7 (the parameter table), `10_state.md` R27 (IV), `42_backends.md` R121 (NLANES);
decisions D7 and D19. Every other parameter of R7 is a width or a size and is fixed in the types.
-/

namespace Sys2Proof

/-- What an implementation fixes: the largest lane count COMPRESS.V accepts and the initial chaining value. -/
structure Config where
  /-- NLANES, `1 ≤ NLANES ≤ 255`: it "only decides which COMPRESS.V headers are legal" (R121). -/
  nlanes : Nat
  /-- IV[0..7], the "fixed constants" INIT loads into V (R27). -/
  iv : Chain
deriving DecidableEq, Repr

/-- The range R7 gives NLANES. -/
abbrev Config.legal (c : Config) : Prop := 1 ≤ c.nlanes ∧ c.nlanes ≤ 255

/-- The values this hardware takes: NLANES has its default 8 (DESIGN CHOICE, log entry 2) and IV the eight words
of R27's table (PRESUMED, log entry 1: the spec marks them as from general knowledge). -/
def Config.hw : Config where
  nlanes := 8
  iv := { v0 := 0x7380166F#32, v1 := 0x4914B2B9#32, v2 := 0x172442D7#32, v3 := 0xDA8A0600#32,
          v4 := 0xA96F30BC#32, v5 := 0x163138AA#32, v6 := 0xE38DEE4D#32, v7 := 0xB0FB0E4E#32 }

end Sys2Proof
end

