-- ==== Sys2Proof/Syntax.lean ====
section
/-!
DEFINITION. The six commands of the set SM3CORE-CMD-1, one constructor per row of `spec/opcode_table.json`.

Rules: `30_encoding.md` R55 (a command is a header followed by LEN payload bytes), R66 (the opcode map).
A command carries its payload: PAY of `20_memory.md` R40 is the constructor's byte-string argument, and LEN
is its length, so that LEN is never a second, disagreeing copy of it.
-/

namespace Sys2Proof

/-- The three interchangeable realisations of CF, and the legal values of BKSEL (`10_state.md` R26). -/
inductive Backend where
  /-- S, the scalar reference backend. -/
  | scalar
  /-- U, the unrolled / table-driven backend. -/
  | unrolled
  /-- V, the vector-batch backend. -/
  | vector
deriving DecidableEq, Repr

/-- A command of the core (R66). -/
inductive Instr where
  /-- INIT, OPC 0x01: create or re-create the context; `bk` is ARG[1:0] (R60, R126). -/
  | init (bk : Backend)
  /-- ABSORB, OPC 0x02: append the message bytes `pay` (R61, R127). -/
  | absorb (pay : List Byte)
  /-- FINAL, OPC 0x03: pad, compress the tail, emit the digest (R62, R132). -/
  | final
  /-- COMPRESS.S, OPC 0x10: CF on the compress record `pay` by the scalar backend (R63, R112). -/
  | compressS (pay : List Byte)
  /-- COMPRESS.U, OPC 0x11: CF on the compress record `pay` by the unrolled backend (R64, R113). -/
  | compressU (pay : List Byte)
  /-- COMPRESS.V, OPC 0x12: CF on the `n` compress records in `pay` by the vector backend; `n` is ARG (R65, R115). -/
  | compressV (n : Byte) (pay : List Byte)
deriving DecidableEq, Repr

end Sys2Proof
end

