-- ==== Sys2Proof/Machine/State.lean ====
section
/-!
DEFINITION. The state of the core, as plain data, and its value after reset.

Rules: `10_state.md` R20 (the complete list) to R31, R33 (the transient state), R35 (reset). The list in INVENTORY.md,
"State", gives each field its rule and its reset value. The constant ROMs IV, T_LO, T_HI and TTAB never change and are
constants of the definition (R171): `Config.iv`, `Machine/Round.lean`. There is no program counter (R32).
-/

namespace Sys2Proof.Machine

/-- ST, the engine status flag, the core's only flag (R25). Its encoding, never visible to the host, is ACTIVE = 1 and
TERMINAL = 0 (`statusBit` in Machine/Flags.lean). -/
inductive EngineStatus where
  /-- No context, or a consumed one: ABSORB and FINAL are rejected. -/
  | terminal
  /-- A hash is in progress. -/
  | active
deriving DecidableEq, Repr

/-- The working registers A..H of one lane (R29). -/
structure Regs where
  a : Word
  b : Word
  c : Word
  d : Word
  e : Word
  f : Word
  g : Word
  h : Word
deriving DecidableEq, Repr

/-- The transient state of one lane: its latches LV and LB (R28), its working registers (R29) and its ExpansionWords W
and W1 (R30). -/
structure Lane where
  lv : Chain
  lb : Block
  regs : Regs
  w : Vector Word 68
  w1 : Vector Word 64
deriving DecidableEq, Repr

/-- The transient state of one compression: its active lanes, lane 0 first (R28; the idle lanes hold nothing, log
entry 5), and the round counter j, 0..64, which all lanes share (R31). -/
structure Compression where
  lanes : List Lane
  j : Fin 65
deriving DecidableEq, Repr

/-- A byte-addressed memory: the pairs (address, byte) whose byte the spec gives a value, in the canonical form
`Memory.wf` (Machine/Ops.lean). An address that is not listed holds no value: the spec leaves it unspecified
(R23, R35; log entry 4). -/
abbrev Memory := List Host.Cell

/-- The state of the core (R20) and, in its last two fields, the two ports as the host sees them. -/
structure State where
  /-- V, the chaining-state register file, 8 × 32 bits (R21). -/
  v : Chain
  /-- NBITS, the bit-length counter, 64 bits (R22). -/
  nbits : BitVec 64
  /-- BUF, the pending-byte buffer, 64 bytes at addresses 0..63 (R23, R40). -/
  buf : Memory
  /-- IDX, the buffer fill count, 0..63 (R24). -/
  idx : Fin 64
  /-- ST, the engine status flag (R25). -/
  st : EngineStatus
  /-- BKSEL, the backend-select control register; its reserved value 3 is never held (R26). -/
  bksel : Backend
  /-- LV, LB, A..H, W, W1 and j while a compression runs; `none`, "no value", at all other times (R28 to R31, R33). -/
  comp : Option Compression
  /-- The model's own field (log entry 6): the bytes the host has put on the command port and the core has not taken,
  first byte first (R47, R55). -/
  cmd : List Byte
  /-- The model's own field (log entry 6): every response packet the core has produced, oldest first; what a host
  can observe (R6, R55). -/
  rsp : List (List Byte)
deriving DecidableEq, Repr

/-- Why a step stops. The faults InvalidState and IllegalCommand of the spec are not here: a rejected command gets a
response and the machine goes on (R155). -/
inductive Fault where
  /-- ABSORB or FINAL needs a byte of BUF below IDX that holds no value (R23: only BUF[0..IDX−1] is meaningful). Raised
  by `execAbsorb` and `execFinal`, in states only that break `State.Inv` (Safety.lean), which no run reaches.
  Safe: the model stops. -/
  | pendingByteUnspecified
deriving DecidableEq, Repr

/-- Why an instruction is given no meaning. -/
inductive Refusal where
  /-- Raised by an arm of `exec` whose instruction has no meaning yet; no arm is left in that case. Safe. -/
  | notModelled (mnemonic : String)
deriving DecidableEq, Repr

/-- The machine right after reset (R35, R170): ST = TERMINAL, BKSEL = 0 (S), no transient state. V, NBITS, BUF and IDX
are unspecified there: BUF lists nothing, and the registers V, NBITS and IDX hold 0 (DESIGN CHOICE, log entry 3).
The ports hold nothing (log entry 6). -/
def State.reset : State where
  v := { v0 := 0#32, v1 := 0#32, v2 := 0#32, v3 := 0#32, v4 := 0#32, v5 := 0#32, v6 := 0#32, v7 := 0#32 }
  nbits := 0#64
  buf := []
  idx := 0
  st := .terminal
  bksel := .scalar
  comp := none
  cmd := []
  rsp := []

end Sys2Proof.Machine
end

