-- ==== Sys2Proof/Machine/Ops.lean ====
section
/-!
DEFINITION. The named operations over the pending buffer, the registers and the response port, and the rejection of a
command, the only thing this core has in place of an exception.

Rules: `20_memory.md` R40 (the byte spaces), `10_state.md` R22 to R24, `30_encoding.md` R57 (responses),
`60_exceptions.md` R154, R155 (what a rejected command does), R158, R159 (nothing is entered, so there is nothing to return
from and no return operation).
-/

namespace Sys2Proof.Machine

/-- The canonical form of a memory: addresses strictly rising. No listed byte can equal what an unlisted address reads
as, because an unlisted address has no value at all. -/
abbrev Memory.wf (m : Memory) : Prop := m.Pairwise fun x y => x.1 < y.1

/-- The byte at address `a`, `none` where the spec gives it no value. -/
def Memory.read : Memory → Nat → Option Byte
  | [], _ => none
  | (b, v) :: m, a => if a = b then some v else Memory.read m a

/-- `BUF[a] <- v`, keeping the canonical form. -/
def Memory.write : Memory → Nat → Byte → Memory
  | [], a, v => [(a, v)]
  | (b, u) :: m, a, v =>
    if a < b then (a, v) :: (b, u) :: m
    else if a = b then (a, v) :: m
    else (b, u) :: Memory.write m a v

/-- `BUF[a .. a+n-1] <- s` for a string `s` of `n` bytes. -/
def Memory.writeBytes : Memory → Nat → List Byte → Memory
  | m, _, [] => m
  | m, a, v :: s => Memory.writeBytes (m.write a v) (a + 1) s

/-- The bytes at and above address `n` become unspecified (R23: "BUF[IDX..63] are don't-care"). -/
def Memory.forgetFrom (m : Memory) (n : Nat) : Memory := m.filter fun cell => decide (cell.1 < n)

/-- `BUF[a .. a+n-1]`, `none` if one of these bytes has no value. -/
def Memory.readBytes : Memory → Nat → Nat → Option (List Byte)
  | _, _, 0 => some []
  | m, a, n + 1 =>
    match m.read a, Memory.readBytes m (a + 1) n with
    | some v, some s => some (v :: s)
    | _, _ => none

/-- The pending bytes `BUF[0 .. IDX-1]`, in stream order (R23). -/
def State.pending (s : State) : Option (List Byte) := s.buf.readBytes 0 s.idx.val

/-- `IDX <- r`, by which the bytes of BUF at and above `r` become don't-care (R23, R24). -/
def State.setFill (r : Fin 64) (s : State) : State := { s with idx := r, buf := s.buf.forgetFrom r.val }

/-- `BUF[0 .. r-1] <- rest; IDX <- r` for the `r` bytes `rest`, `r < 64`: the last line of Feed (R129). -/
def State.storePending (rest : List Byte) (s : State) : State :=
  State.setFill (Fin.ofNat 64 rest.length) { s with buf := s.buf.writeBytes 0 rest }

/-- `NBITS <- (NBITS + 8*n) mod 2^64` (R22, R137). -/
def State.countBytes (n : Nat) (s : State) : State := { s with nbits := s.nbits + BitVec.ofNat 64 (8 * n) }

/-- A response packet (R57): header STATUS, ROPC, RLEN, big-endian, then the payload. -/
def rspPacket (status opc : Byte) (payload : List Byte) : List Byte :=
  be32enc (status ++ opc ++ BitVec.ofNat 16 payload.length) ++ payload

/-- The end of every command: its one response leaves (R55), and the transient state holds no value any more (R33). -/
def State.respond (status opc : Byte) (payload : List Byte) (s : State) : State :=
  { s with rsp := s.rsp ++ [rspPacket status opc payload], comp := none }

/-- A command that executed: STATUS 0x00, with the payload of R72. -/
def State.respondOk (opc : Byte) (payload : List Byte) (s : State) : State := s.respond 0x00#8 opc payload

/-- The two faults the core can raise (R150). -/
inductive Rejection where
  /-- ABSORB or FINAL decoded while ST = TERMINAL (R151). -/
  | invalidState
  /-- A header the opcode map gives no meaning (R152). -/
  | illegalCommand
deriving DecidableEq, Repr

/-- The STATUS codes of the faults (R154). -/
def Rejection.code : Rejection → Byte
  | .invalidState => 0x01#8
  | .illegalCommand => 0x02#8

/-- `raise F`, the one shared operation of taking a fault (R155): no architectural state is written, the response carries
F's code, the OPC received and no payload, and nothing is latched. (The payload's consumption is the packet's, R58: the
command port is already past it.) -/
def State.reject (f : Rejection) (opc : Byte) (s : State) : State := s.respond f.code opc []

end Sys2Proof.Machine
end

