-- ==== Sys2Proof/WellFormed.lean ====
section
/-!
DEFINITION. Which terms of `Instr` are commands: the operand checks of `30_encoding.md` R60 to R65 that the
constructors' types do not already make, and the payload limit MAXLEN of R7.
-/

namespace Sys2Proof

/-- MAXLEN: LEN is a 16-bit field, so one command carries at most 65535 payload bytes (R7, R56). -/
abbrev maxLen : Nat := 65535

/-- The size of a compress record: a 32-byte state image and a 64-byte block (R73). -/
abbrev recordLen : Nat := 96

/-- The operand check of each command (R58, R60 to R65): INIT and FINAL have no payload and nothing to check
that their constructors can get wrong; every LEN the field can hold is legal for ABSORB; COMPRESS.S and COMPRESS.U
take one record; COMPRESS.V takes ARG = N records with `1 ≤ N ≤ NLANES`. -/
def Instr.wf (c : Config) : Instr → Bool
  | .init _ => true
  | .absorb pay => pay.length ≤ maxLen
  | .final => true
  | .compressS pay => pay.length = recordLen
  | .compressU pay => pay.length = recordLen
  | .compressV n pay => 1 ≤ n.toNat && n.toNat ≤ c.nlanes && pay.length = recordLen * n.toNat

end Sys2Proof
end

