-- ==== Sys2Proof/Machine/Operands.lean ====
section
/-!
DEFINITION. The operand forms: what a command reads from its payload.

Rules: `00_scope.md` R13 (`PayRead`), `30_encoding.md` R59, R73 (the compress record), R74 (the COMPRESS.V payload).
INIT's operand is ARG[1:0], a constructor argument; ABSORB's is its whole payload; FINAL has none.
-/

namespace Sys2Proof.Machine

/-- `PayRead(a, n)`: the payload bytes `PAY[a .. a+n-1]`, defined for `a + n ≤ LEN` (R13). -/
def payRead (pay : List Byte) (a n : Nat) : List Byte := (pay.drop a).take n

/-- Lane `l`'s compress record: the state image `StateDec(PAY[96l .. 96l+31])` and the block `PAY[96l+32 .. 96l+95]`
(R74; for `l = 0` it is the record of R73). -/
def recordAt (pay : List Byte) (l : Nat) : Chain × Block :=
  (stateDec (payRead pay (recordLen * l) 32), blockOf (payRead pay (recordLen * l + 32) 64))

/-- The records of lanes `0 .. n-1`, lane 0 first (R74). -/
def recordsOf (pay : List Byte) (n : Nat) : List (Chain × Block) := (List.range n).map (recordAt pay)

end Sys2Proof.Machine
end

