-- ==== Sys2Proof/Machine/Schedule.lean ====
section
/-!
DEFINITION. The MessageScheduler: one 64-byte block to the ExpansionWords W[0..67] and W1[0..63].

Rules: `40_scheduler.md` R80 to R87. The expansion is a total function of the block alone (R80); it runs once per lane
at the start of every compression (`Lane.load`, Machine/Backends.lean).
-/

namespace Sys2Proof.Machine

/-- The permutation P1: rotations by 15 and 23 (R82). -/
def p1 (x : Word) : Word := x ^^^ rotl x 15 ^^^ rotl x 23

/-- W[0..15]: "the block's big-endian 32-bit words" (R81). -/
def blockWords (b : Block) : List Word :=
  (List.finRange 16).map fun i =>
    be32dec (b[4 * i.val]'(by omega)) (b[4 * i.val + 1]'(by omega)) (b[4 * i.val + 2]'(by omega)) (b[4 * i.val + 3]'(by omega))

/-- The recurrence's right side for W[i], `16 ≤ i`, over the words already computed (R83). -/
def nextWord (w : List Word) (i : Nat) : Word :=
  p1 (w.getD (i - 16) 0 ^^^ w.getD (i - 9) 0 ^^^ rotl (w.getD (i - 3) 0) 15)
    ^^^ rotl (w.getD (i - 13) 0) 7 ^^^ w.getD (i - 6) 0

/-- `n` more schedule words, in increasing order of index (R83). -/
def extendWords : Nat → List Word → List Word
  | 0, w => w
  | n + 1, w => extendWords n (w ++ [nextWord w w.length])

/-- Every extension adds as many words as asked for. -/
theorem extendWords_length (n : Nat) (w : List Word) : (extendWords n w).length = w.length + n := by
  induction n generalizing w with
  | zero => rfl
  | succ n ih => simp only [extendWords, ih, List.length_append, List.length_singleton]; omega

/-- W[0..67] as a list: 16 block words and 52 words of the recurrence (R81, R83). -/
def scheduleWords (b : Block) : List Word := extendWords 52 (blockWords b)

/-- "68 schedule words" (R80). -/
theorem scheduleWords_length (b : Block) : (scheduleWords b).length = 68 := by
  simp [scheduleWords, extendWords_length, blockWords]

/-- W[0..67] (R85). -/
def expandW (b : Block) : Vector Word 68 := ⟨(scheduleWords b).toArray, by simp [scheduleWords_length]⟩

/-- The derived words, `W1[i] = W[i] xor W[i+4]`, `0 ≤ i ≤ 63` (R84). -/
def derivedWords (w : Vector Word 68) : Vector Word 64 := Vector.ofFn fun i => w[i.val] ^^^ w[i.val + 4]

/-- The ExpansionWords of a block (R30). -/
structure Schedule where
  w : Vector Word 68
  w1 : Vector Word 64
deriving DecidableEq, Repr

/-- `Expand(B) = (W, W1)` (R85). -/
def expand (b : Block) : Schedule := { w := expandW b, w1 := derivedWords (expandW b) }

end Sys2Proof.Machine
end

