-- ==== Sys2Proof/Machine/Round.lean ====
section
/-!
DEFINITION. The compression round, the feed-forward and the compression function CF.

Rules: `41_round.md` R90 to R102. Every operation is total on 32-bit words, none writes a flag, none can raise a fault; sums
are modulo 2^32 (R95).
-/

namespace Sys2Proof.Machine

/-- The round constant of the first band, a ROM word (R27, R90). -/
def tLo : Word := 0x79CC4519#32

/-- The round constant of the second band, a ROM word (R27, R90). -/
def tHi : Word := 0x7A879D8A#32

/-- `T(j)`: the bands switch between j = 15 and j = 16 (R90, R98). -/
def tConst (j : Nat) : Word := if j < 16 then tLo else tHi

/-- `TR(j) = rotl(T(j), j mod 32)`, the rotated round constant (R91). -/
def tRot (j : Nat) : Word := rotl (tConst j) (j % 32)

/-- FF: xor in the first band, bitwise majority in the second (R92). -/
def ff (j : Nat) (a b c : Word) : Word :=
  if j < 16 then a ^^^ b ^^^ c else (a &&& b) ||| (a &&& c) ||| (b &&& c)

/-- GG: xor in the first band, bitwise choose in the second (R93). -/
def gg (j : Nat) (e f g : Word) : Word :=
  if j < 16 then e ^^^ f ^^^ g else (e &&& f) ||| (~~~e &&& g)

/-- The permutation P0: rotations by 9 and 17 (R94). -/
def p0 (x : Word) : Word := x ^^^ rotl x 9 ^^^ rotl x 17

/-- The wires of a round: "SS1, SS2, TT1, TT2 are wires, not state" (R97). -/
structure Wires where
  ss1 : Word
  ss2 : Word
  tt1 : Word
  tt2 : Word
deriving DecidableEq, Repr

/-- The four wires from the registers, the words `wj = W[j]` and `w1j = W1[j]`, the rotated constant `tr` and the values
`f` of FF and `g` of GG: the sums of R97, the same in every backend. -/
def wiresOf (tr f g : Word) (r : Regs) (wj w1j : Word) : Wires :=
  let ss1 := rotl (rotl r.a 12 + r.e + tr) 7
  let ss2 := ss1 ^^^ rotl r.a 12
  { ss1 := ss1, ss2 := ss2, tt1 := f + r.d + ss2 + w1j, tt2 := g + r.h + ss1 + wj }

/-- The wires of round `j` as R97 writes them. -/
def roundWires (j : Nat) (r : Regs) (wj w1j : Word) : Wires :=
  wiresOf (rotl (tConst j) (j % 32)) (ff j r.a r.b r.c) (gg j r.e r.f r.g) r wj w1j

/-- The simultaneous register update at the end of a round (R97). -/
def updateRegs (r : Regs) (t : Wires) : Regs where
  a := t.tt1
  b := r.a
  c := rotl r.b 9
  d := r.c
  e := p0 t.tt2
  f := r.e
  g := rotl r.f 19
  h := r.g

/-- `Round(j)` (R97). -/
def round (j : Nat) (r : Regs) (wj w1j : Word) : Regs := updateRegs r (roundWires j r wj w1j)

/-- Seed: A..H from the input state's words 0..7 (R96). -/
def seed (v : Chain) : Regs where
  a := v.v0
  b := v.v1
  c := v.v2
  d := v.v3
  e := v.v4
  f := v.v5
  g := v.v6
  h := v.v7

/-- Feed-forward: the input state xor A..H, word-wise (R100). -/
def feedForward (v : Chain) (r : Regs) : Chain where
  v0 := v.v0 ^^^ r.a
  v1 := v.v1 ^^^ r.b
  v2 := v.v2 ^^^ r.c
  v3 := v.v3 ^^^ r.d
  v4 := v.v4 ^^^ r.e
  v5 := v.v5 ^^^ r.f
  v6 := v.v6 ^^^ r.g
  v7 := v.v7 ^^^ r.h

/-- The 64 rounds `j = 0, 1, ..., 63` in that order (R99). -/
def rounds64 (x : Schedule) (r : Regs) : Regs :=
  (List.finRange 64).foldl (fun r j => round j.val r x.w[j.val] x.w1[j.val]) r

/-- The compression function CF, a pure function of a state and a block (R101). -/
def cf (v : Chain) (b : Block) : Chain := feedForward v (rounds64 (expand b) (seed v))

end Sys2Proof.Machine
end

