-- ==== Sys2Proof/Machine/Backends.lean ====
section
/-!
DEFINITION. The CompressionBackend's three variants on the transient state, and the three commands that expose them.

Rules: `42_backends.md` R110 to R122; `10_state.md` R28 to R31 (latches, registers, ExpansionWords, round counter). R111
lets a model define all three backends by CF; here each is written as the spec describes its inside (R112, R114, R115,
R117), and that they agree with CF is an obligation, not a definition.
-/

namespace Sys2Proof.Machine

/-- Load a lane at the start of a compression: the latches, the seeded registers and the full Expand of its own block
(R28, R86, R96). -/
def Lane.load (v : Chain) (b : Block) : Lane where
  lv := v
  lb := b
  regs := seed v
  w := (expand b).w
  w1 := (expand b).w1

/-- One round on one lane, given the round's body. -/
def Lane.advance (body : Nat → Regs → Word → Word → Regs) (j : Fin 64) (l : Lane) : Lane :=
  { l with regs := body j.val l.regs l.w[j.val] l.w1[j.val] }

/-- Load one lane per (state, block) pair, lane 0 first, and set the round counter to 0 (R28, R31). -/
def Compression.load (recs : List (Chain × Block)) : Compression where
  lanes := recs.map fun r => Lane.load r.1 r.2
  j := 0

/-- One lockstep round: every lane at the same j, which then increases by one; at j = 64 the compression has ended
(R31, R117). -/
def Compression.advance (body : Nat → Regs → Word → Word → Regs) (c : Compression) : Compression :=
  if h : c.j.val < 64 then
    { lanes := c.lanes.map (Lane.advance body ⟨c.j.val, h⟩), j := ⟨c.j.val + 1, by omega⟩ }
  else c

/-- `n` rounds one after another. -/
def Compression.repeatRounds (body : Nat → Regs → Word → Word → Regs) : Nat → Compression → Compression
  | 0, c => c
  | n + 1, c => Compression.repeatRounds body n (c.advance body)

/-- TTAB, the unrolled backend's ROM of pre-rotated round constants; row `r`, column `c` is `j = 8r + c` (R27, R91). -/
def ttab : List Word :=
  [0x79CC4519#32, 0xF3988A32#32, 0xE7311465#32, 0xCE6228CB#32, 0x9CC45197#32, 0x3988A32F#32, 0x7311465E#32, 0xE6228CBC#32] ++
  [0xCC451979#32, 0x988A32F3#32, 0x311465E7#32, 0x6228CBCE#32, 0xC451979C#32, 0x88A32F39#32, 0x11465E73#32, 0x228CBCE6#32] ++
  [0x9D8A7A87#32, 0x3B14F50F#32, 0x7629EA1E#32, 0xEC53D43C#32, 0xD8A7A879#32, 0xB14F50F3#32, 0x629EA1E7#32, 0xC53D43CE#32] ++
  [0x8A7A879D#32, 0x14F50F3B#32, 0x29EA1E76#32, 0x53D43CEC#32, 0xA7A879D8#32, 0x4F50F3B1#32, 0x9EA1E762#32, 0x3D43CEC5#32] ++
  [0x7A879D8A#32, 0xF50F3B14#32, 0xEA1E7629#32, 0xD43CEC53#32, 0xA879D8A7#32, 0x50F3B14F#32, 0xA1E7629E#32, 0x43CEC53D#32] ++
  [0x879D8A7A#32, 0x0F3B14F5#32, 0x1E7629EA#32, 0x3CEC53D4#32, 0x79D8A7A8#32, 0xF3B14F50#32, 0xE7629EA1#32, 0xCEC53D43#32] ++
  [0x9D8A7A87#32, 0x3B14F50F#32, 0x7629EA1E#32, 0xEC53D43C#32, 0xD8A7A879#32, 0xB14F50F3#32, 0x629EA1E7#32, 0xC53D43CE#32] ++
  [0x8A7A879D#32, 0x14F50F3B#32, 0x29EA1E76#32, 0x53D43CEC#32, 0xA7A879D8#32, 0x4F50F3B1#32, 0x9EA1E762#32, 0x3D43CEC5#32]

/-- `TTAB[j]`, `0 ≤ j ≤ 63`. -/
def ttabAt (j : Nat) : Word := ttab.getD j 0

/-- The unrolled backend's round body of the first band: the table word, xor forms inlined, no test of j (R114). -/
def roundLowBand (j : Nat) (r : Regs) (wj w1j : Word) : Regs :=
  updateRegs r (wiresOf (ttabAt j) (r.a ^^^ r.b ^^^ r.c) (r.e ^^^ r.f ^^^ r.g) r wj w1j)

/-- The unrolled backend's round body of the second band: majority and choose inlined (R114). -/
def roundHighBand (j : Nat) (r : Regs) (wj w1j : Word) : Regs :=
  updateRegs r
    (wiresOf (ttabAt j) ((r.a &&& r.b) ||| (r.a &&& r.c) ||| (r.b &&& r.c)) ((r.e &&& r.f) ||| (~~~r.e &&& r.g)) r wj w1j)

/-- The scalar backend: 64 rounds, each computing `rotl(T(j), j mod 32)` and selecting FF and GG by j (R112). -/
def Compression.runScalar (c : Compression) : Compression := c.repeatRounds round 64

/-- The unrolled backend: 16 first-band bodies, then 48 second-band bodies (R114). -/
def Compression.runUnrolled (c : Compression) : Compression :=
  (c.repeatRounds roundLowBand 16).repeatRounds roundHighBand 48

/-- The vector backend: 64 rounds in lockstep over all its lanes (R115, R117). -/
def Compression.runVector (c : Compression) : Compression := c.repeatRounds round 64

/-- The rounds of the backend `bk`. -/
def Compression.run (bk : Backend) (c : Compression) : Compression :=
  match bk with
  | .scalar => c.runScalar
  | .unrolled => c.runUnrolled
  | .vector => c.runVector

/-- The output states, lane 0 first: each lane's input latch xor its own A..H; nothing crosses lanes (R100, R116). -/
def Compression.outputs (c : Compression) : List Chain := c.lanes.map fun l => feedForward l.lv l.regs

/-- Start a compression: the latches are written and the transient state is live (R28). -/
def State.loadLanes (recs : List (Chain × Block)) (s : State) : State := { s with comp := some (Compression.load recs) }

/-- Run the loaded compression to its end on the backend `bk`. -/
def State.runLanes (bk : Backend) (s : State) : State := { s with comp := s.comp.map (Compression.run bk) }

/-- The output states of the compression that has run. -/
def State.laneOutputs (s : State) : List Chain :=
  match s.comp with
  | some c => c.outputs
  | none => []

/-- The latches are dead at the end of a compression (R28, R33). -/
def State.dropLanes (s : State) : State := { s with comp := none }

/-- One whole compression of (state, block) pairs on the backend `bk`: the output states, lane 0 first, and the state
after it. -/
def State.compress (bk : Backend) (recs : List (Chain × Block)) (s : State) : List Chain × State :=
  let t := (s.loadLanes recs).runLanes bk
  (t.laneOutputs, t.dropLanes)

/-- COMPRESS.S (R112): one record on the scalar backend. The operand check is R63's, which the decoder has made
(log entry 11). -/
def execCompressS (pay : List Byte) (s : State) : Host.Outcome State Fault Refusal :=
  if pay.length = recordLen then
    let out := s.compress .scalar [recordAt pay 0]
    .next (out.2.respondOk 0x10#8 (out.1.flatMap stateEnc))
  else .next (s.reject .illegalCommand 0x10#8)

/-- COMPRESS.U (R113): one record on the unrolled backend. The operand check is R64's. -/
def execCompressU (pay : List Byte) (s : State) : Host.Outcome State Fault Refusal :=
  if pay.length = recordLen then
    let out := s.compress .unrolled [recordAt pay 0]
    .next (out.2.respondOk 0x11#8 (out.1.flatMap stateEnc))
  else .next (s.reject .illegalCommand 0x11#8)

/-- COMPRESS.V (R115) on a core with parameters `c`: N = ARG records on the vector backend, RLEN = 32·N, lane 0 first. The
operand check is R65's. -/
def execCompressVWith (c : Config) (n : Byte) (pay : List Byte) (s : State) : Host.Outcome State Fault Refusal :=
  if 1 ≤ n.toNat ∧ n.toNat ≤ c.nlanes ∧ pay.length = recordLen * n.toNat then
    let out := s.compress .vector (recordsOf pay n.toNat)
    .next (out.2.respondOk 0x12#8 (out.1.flatMap stateEnc))
  else .next (s.reject .illegalCommand 0x12#8)

/-- COMPRESS.V on this hardware. -/
def execCompressV (n : Byte) (pay : List Byte) (s : State) : Host.Outcome State Fault Refusal :=
  execCompressVWith Config.hw n pay s

end Sys2Proof.Machine
end

