-- ==== Sys2Proof/Machine/Flags.lean ====
section
/-!
DEFINITION. The flag ST: every effect on it, and its canonical encoding.

Rule: `10_state.md` R25. ST is the core's only flag: no condition codes, no carry, no overflow (R25, R95). The commands
COMPRESS.S, COMPRESS.U, COMPRESS.V, ABSORB and every rejected command leave it alone.
-/

namespace Sys2Proof.Machine

/-- "ACTIVE (1) or TERMINAL (0)" (R25). -/
def statusBit : EngineStatus → BitVec 1
  | .terminal => 0#1
  | .active => 1#1

/-- INIT executed: `ST <- ACTIVE`, from any prior value (R25, R126). -/
def State.activate (s : State) : State := { s with st := .active }

/-- FINAL executed: `ST <- TERMINAL` (R25, R132). -/
def State.consume (s : State) : State := { s with st := .terminal }

end Sys2Proof.Machine
end

