-- ==== Sys2Proof/Machine/Engine.lean ====
section
/-!
DEFINITION. The Engine: the chaining-state manager, absorber, padder and finalizer, and its three commands.

Rules: `43_engine.md` R125 to R138; `42_backends.md` R122 (the engine's use of a backend).
-/

namespace Sys2Proof.Machine

/-- `V <- CF(V, b)` by the backend BKSEL names, on lane 0, all other lanes idle; V is written once, as a whole (R102,
R122, R129). -/
def State.compressBlock (b : Block) (s : State) : State :=
  let out := s.compress s.bksel [(s.v, b)]
  { out.2 with v := out.1.headD s.v }

/-- Compress the first `q` 64-byte blocks of a byte string in stream order (R129). -/
def State.compressBlocks : Nat → List Byte → State → State
  | 0, _, s => s
  | q + 1, data, s => State.compressBlocks q (data.drop 64) (s.compressBlock (blockOf (data.take 64)))

/-- Feed on the pending bytes `p` (R129): `S = p ‖ data`; its complete blocks are compressed and the remainder stays
pending. -/
def State.feedAfter (p data : List Byte) (s : State) : State :=
  let str := p ++ data
  let q := str.length / 64
  (s.compressBlocks q str).storePending (str.drop (64 * q))

/-- Feed(data) (R129); `none` where a pending byte has no value. -/
def State.feed (data : List Byte) (s : State) : Option State :=
  s.pending.map fun p => s.feedAfter p data

/-- The number of zero bytes of the padding for fill count `idx` (R131, after `90_conflicts.md` C1). -/
def padZeros (idx : Nat) : Nat := if idx ≤ 55 then 55 - idx else 119 - idx

/-- The padding for fill count `idx` and bit length `l`: 0x80, the zeros, the 8-byte bit length (R131, R132). -/
def padBytes (idx : Nat) (l : BitVec 64) : List Byte :=
  [0x80#8] ++ List.replicate (padZeros idx) 0x00#8 ++ be64enc l

/-- `Pad(n)` for a message of `n` bytes (R131): the source's `padding(len)`. -/
def pad (n : Nat) : List Byte := padBytes (n % 64) (BitVec.ofNat 64 (8 * n))

/-- INIT (R126) on a core with parameters `c`. BUF is not written; with IDX = 0 no byte of it is meaningful. -/
def execInitWith (c : Config) (bk : Backend) (s : State) : Host.Outcome State Fault Refusal :=
  .next ((State.setFill 0 { s with v := c.iv, nbits := 0#64, bksel := bk }).activate.respondOk 0x01#8 [])

/-- INIT on this hardware. -/
def execInit (bk : Backend) (s : State) : Host.Outcome State Fault Refusal := execInitWith Config.hw bk s

/-- ABSORB (R127): InvalidState when ST = TERMINAL; else count the bytes and feed them. -/
def execAbsorb (pay : List Byte) (s : State) : Host.Outcome State Fault Refusal :=
  match s.st with
  | .terminal => .next (s.reject .invalidState 0x02#8)
  | .active =>
    match (s.countBytes pay.length).feed pay with
    | none => .fault .pendingByteUnspecified
    | some t => .next (t.respondOk 0x02#8 [])

/-- FINAL (R132): InvalidState when ST = TERMINAL; else the padding, whose length field is NBITS as found on entry
(`90_conflicts.md` C5), is counted and fed, the digest leaves, and ST becomes TERMINAL. What V, NBITS and IDX hold after it is log entry 13's. -/
def execFinal (s : State) : Host.Outcome State Fault Refusal :=
  match s.st with
  | .terminal => .next (s.reject .invalidState 0x03#8)
  | .active =>
    let tail := padBytes s.idx.val s.nbits
    match (s.countBytes tail.length).feed tail with
    | none => .fault .pendingByteUnspecified
    | some t => .next (t.consume.respondOk 0x03#8 (stateEnc t.v))

end Sys2Proof.Machine
end

