-- ==== Sys2Proof/Machine/Dispatch.lean ====
section
/-!
DEFINITION. The dispatch: one arm per command, each one direct call of its meaning.
-/

namespace Sys2Proof.Machine

def exec (i : Instr) (s : State) : Host.Outcome State Fault Refusal :=
  match i with
  -- the Engine (Machine/Engine.lean)
  | .init bk => Sys2Proof.Machine.execInit bk s
  | .absorb pay => Sys2Proof.Machine.execAbsorb pay s
  | .final => Sys2Proof.Machine.execFinal s
  -- the CompressionBackend (Machine/Backends.lean)
  | .compressS pay => Sys2Proof.Machine.execCompressS pay s
  | .compressU pay => Sys2Proof.Machine.execCompressU pay s
  | .compressV n pay => Sys2Proof.Machine.execCompressV n pay s

end Sys2Proof.Machine
end

