-- ==== Sys2Proof/Decode.lean ====
section
/-!
DEFINITION. The decoder, total on every byte string, and after it the encoder.

Rules: `30_encoding.md` R55, R56 (packet and header format), R58 (the decoding procedure), R59 (operands are taken
as they stand), R60 to R66 (the opcode map), R67 (illegal encodings), R69 (packet length, short streams).
The decoder reads the bytes waiting on the command port. It finds the packet's length in the header whatever OPC
is, so that an illegal command's payload is skipped too (R58, R69).
-/

namespace Sys2Proof

open Machine (be32dec be32enc)

/-- Why a header is illegal: the cases of R67, one name each. All are reported as IllegalCommand (R152). -/
inductive Illegal where
  /-- R67 item 1: OPC is one of the 250 reserved values. -/
  | reservedOpcode
  /-- R67 item 2: INIT with ARG[7:2] ≠ 0. -/
  | initReservedBits
  /-- R67 item 2: INIT with ARG[1:0] = 3. -/
  | initReservedBackend
  /-- R67 item 2: INIT with LEN ≠ 0. -/
  | initLength
  /-- R67 item 3: ABSORB with ARG ≠ 0. -/
  | absorbArgument
  /-- R67 item 4: FINAL with ARG ≠ 0. -/
  | finalArgument
  /-- R67 item 4: FINAL with LEN ≠ 0. -/
  | finalLength
  /-- R67 item 5: COMPRESS.S or COMPRESS.U with ARG ≠ 0. -/
  | compressArgument
  /-- R67 item 5: COMPRESS.S or COMPRESS.U with LEN ≠ 96. -/
  | compressLength
  /-- R67 item 6: COMPRESS.V with ARG = 0. -/
  | noLanes
  /-- R67 item 6: COMPRESS.V with ARG > NLANES. -/
  | tooManyLanes
  /-- R67 item 6: COMPRESS.V with LEN ≠ 96·ARG. -/
  | lanesLength
deriving DecidableEq, Repr

/-- What the bytes on the command port hold. -/
inductive Decoded where
  /-- Fewer bytes than the next packet needs: "the core waits for the missing bytes and does nothing" (R69). -/
  | incomplete
  /-- A whole packet that is no command; `opc` is the OPC received, `rest` the bytes after the packet. -/
  | illegal (opc : Byte) (why : Illegal) (rest : List Byte)
  /-- A whole packet that is the command `i`; `rest` are the bytes after the packet. -/
  | command (i : Instr) (rest : List Byte)
deriving DecidableEq, Repr

/-- OPC = HDR[31:24] (R56). -/
def hdrOpc (hdr : Word) : Byte := hdr.extractLsb' 24 8

/-- ARG = HDR[23:16] (R56). -/
def hdrArg (hdr : Word) : Byte := hdr.extractLsb' 16 8

/-- LEN = HDR[15:0], an unsigned number (R56, R59). -/
def hdrLen (hdr : Word) : Nat := (hdr.extractLsb' 0 16).toNat

/-- INIT's operand check (R60): ARG[7:2] = 0, ARG[1:0] ≠ 3, LEN = 0. -/
def decodeInit (arg : Byte) (pay : List Byte) : Except Illegal Instr :=
  if arg.extractLsb' 2 6 ≠ 0#6 then .error .initReservedBits
  else if pay ≠ [] then .error .initLength
  else if arg.extractLsb' 0 2 = 0#2 then .ok (.init .scalar)
  else if arg.extractLsb' 0 2 = 1#2 then .ok (.init .unrolled)
  else if arg.extractLsb' 0 2 = 2#2 then .ok (.init .vector)
  else .error .initReservedBackend

/-- ABSORB's operand check (R61): ARG = 0; every LEN is legal. -/
def decodeAbsorb (arg : Byte) (pay : List Byte) : Except Illegal Instr :=
  if arg ≠ 0#8 then .error .absorbArgument else .ok (.absorb pay)

/-- FINAL's operand check (R62): ARG = 0 and LEN = 0. -/
def decodeFinal (arg : Byte) (pay : List Byte) : Except Illegal Instr :=
  if arg ≠ 0#8 then .error .finalArgument
  else if pay ≠ [] then .error .finalLength
  else .ok .final

/-- COMPRESS.S's operand check (R63): ARG = 0 and LEN = 96. -/
def decodeCompressS (arg : Byte) (pay : List Byte) : Except Illegal Instr :=
  if arg ≠ 0#8 then .error .compressArgument
  else if pay.length ≠ recordLen then .error .compressLength
  else .ok (.compressS pay)

/-- COMPRESS.U's operand check (R64): ARG = 0 and LEN = 96. -/
def decodeCompressU (arg : Byte) (pay : List Byte) : Except Illegal Instr :=
  if arg ≠ 0#8 then .error .compressArgument
  else if pay.length ≠ recordLen then .error .compressLength
  else .ok (.compressU pay)

/-- COMPRESS.V's operand check (R65): `1 ≤ ARG ≤ NLANES` and LEN = 96·ARG. -/
def decodeCompressV (c : Config) (arg : Byte) (pay : List Byte) : Except Illegal Instr :=
  if arg = 0#8 then .error .noLanes
  else if c.nlanes < arg.toNat then .error .tooManyLanes
  else if pay.length ≠ recordLen * arg.toNat then .error .lanesLength
  else .ok (.compressV arg pay)

/-- The opcode map (R66) and the operand checks, on a whole packet. -/
def decodePacket (c : Config) (opc arg : Byte) (pay : List Byte) : Except Illegal Instr :=
  if opc = 0x01#8 then decodeInit arg pay
  else if opc = 0x02#8 then decodeAbsorb arg pay
  else if opc = 0x03#8 then decodeFinal arg pay
  else if opc = 0x10#8 then decodeCompressS arg pay
  else if opc = 0x11#8 then decodeCompressU arg pay
  else if opc = 0x12#8 then decodeCompressV c arg pay
  else .error .reservedOpcode

/-- `decode(HDR)` of R58 on the bytes after the header: take LEN bytes as PAY, "always, whatever OPC is", then check. -/
def decodeAfter (c : Config) (hdr : Word) (bytes : List Byte) : Decoded :=
  if bytes.length < hdrLen hdr then .incomplete
  else match decodePacket c (hdrOpc hdr) (hdrArg hdr) (bytes.take (hdrLen hdr)) with
    | .ok i => .command i (bytes.drop (hdrLen hdr))
    | .error why => .illegal (hdrOpc hdr) why (bytes.drop (hdrLen hdr))

/-- The decoder for a core with parameters `c`: the 4-byte big-endian header, then LEN payload bytes (R55, R56). -/
def decodeWith (c : Config) : List Byte → Decoded
  | b0 :: b1 :: b2 :: b3 :: bytes => decodeAfter c (be32dec b0 b1 b2 b3) bytes
  | _ => .incomplete

/-- The decoder of this hardware. -/
def decode (bytes : List Byte) : Decoded := decodeWith Config.hw bytes

/-- BKSEL's numbers, which are INIT's ARG (R26, R66). -/
def backendCode : Backend → Byte
  | .scalar => 0#8
  | .unrolled => 1#8
  | .vector => 2#8

/-- The OPC of each command (R66). -/
def Instr.opcode : Instr → Byte
  | .init _ => 0x01#8
  | .absorb _ => 0x02#8
  | .final => 0x03#8
  | .compressS _ => 0x10#8
  | .compressU _ => 0x11#8
  | .compressV _ _ => 0x12#8

/-- The ARG of each command (R66). -/
def Instr.arg : Instr → Byte
  | .init bk => backendCode bk
  | .absorb _ => 0#8
  | .final => 0#8
  | .compressS _ => 0#8
  | .compressU _ => 0#8
  | .compressV n _ => n

/-- The payload of each command (R66). -/
def Instr.payload : Instr → List Byte
  | .init _ => []
  | .absorb pay => pay
  | .final => []
  | .compressS pay => pay
  | .compressU pay => pay
  | .compressV _ pay => pay

/-- The header word: OPC in bits 31:24, ARG in bits 23:16, LEN in bits 15:0 (R56). -/
def Instr.header (i : Instr) : Word := i.opcode ++ i.arg ++ BitVec.ofNat 16 i.payload.length

/-- The packet of a command: the header big-endian, then the payload (R55, R56). -/
def encode (i : Instr) : List Byte := be32enc i.header ++ i.payload

/-- The packet whose header and payload words are the bits of `w` as the opcode table numbers them (log entry 12): the header is the
first 32-bit word (bits 31:0), and payload word `k` is bits `32k+63 .. 32k+32`, each stored big-endian as every
quantity of the core is (R41, R42). Every bit at or above `nbits` is 0, so a payload that the table gives no bits is LEN zero
bytes. -/
def tablePacket (nbits w : Nat) : List Byte :=
  let bits := w % 2 ^ nbits
  let hdr := BitVec.ofNat 32 bits
  be32enc hdr ++
    (List.range (hdrLen hdr)).map fun k => BitVec.ofNat 8 (bits >>> (32 * (k / 4 + 1) + 8 * (3 - k % 4)))

/-- The instruction the decoder reads from a table word, `none` where it refuses. -/
def decodeTableWord (nbits w : Nat) : Option Instr :=
  match decode (tablePacket nbits w) with
  | .command i _ => some i
  | .illegal _ _ _ => none
  | .incomplete => none

end Sys2Proof
end

