-- ==== Sys2Proof/Machine/Port.lean ====
section
/-!
DEFINITION. The two ports and what the host can do to the core: put bytes on the command port, and reset it.

Rules: `00_scope.md` R5, R6; `20_memory.md` R47, R50; `30_encoding.md` R55, R58, R69; `60_exceptions.md` R155;
`70_reset_and_hazards.md` R170, R177.
-/

namespace Sys2Proof.Machine

/-- The core has taken a packet off the command port; `rest` is what still waits there. -/
def State.takePacket (rest : List Byte) (s : State) : State := { s with cmd := rest }

/-- A packet that is no command: its bytes are consumed and it is rejected with IllegalCommand (R58, R152, R155). -/
def State.rejectPacket (opc : Byte) (rest : List Byte) (s : State) : State :=
  (s.takePacket rest).reject .illegalCommand opc

/-- The host puts bytes on the command port, behind those already there (R47, R177). -/
def State.send (bytes : List Byte) (s : State) : State := { s with cmd := s.cmd ++ bytes }

/-- Reset, at any time (R170): every field of the core to its reset value, a command in progress abandoned without a
response. The responses already produced are the host's and stay; the bytes still on the command port are dropped (DESIGN
CHOICE, log entry 7). -/
def State.resetNow (s : State) : State := { State.reset with rsp := s.rsp }

/-- A packet of the opcode table placed where the next command is taken from: in front of the command port. -/
def State.placePacket (nbits w : Nat) (s : State) : State := { s with cmd := tablePacket nbits w ++ s.cmd }

end Sys2Proof.Machine
end

