-- ==== Sys2Proof/Machine/Step.lean ====
section
/-!
DEFINITION. One step: one command, from its header to its response, is one atomic step (`00_scope.md` R5).

Rules: `30_encoding.md` R58 (the procedure), R69 (a short stream: the core waits); `60_exceptions.md` R156 (the order of
the checks: opcode and operands in `decode`, then ST in the meaning).
-/

namespace Sys2Proof.Machine

/-- Take the packet at the head of the command port and execute or reject it. With no whole packet there the core
waits and nothing changes (R69, R164; log entry 10). -/
def step (s : State) : Host.Outcome State Fault Refusal :=
  match decode s.cmd with
  | .incomplete => .next s
  | .illegal opc _ rest => .next (s.rejectPacket opc rest)
  | .command i rest => exec i (s.takePacket rest)

/-- The state whose next step takes the packet of the table word `w` (log entry 8). -/
def State.withFetchWord (s : State) (nbits w : Nat) : State := s.placePacket nbits w

end Sys2Proof.Machine
end

