-- ==== Sys2Proof/Machine/Hash.lean ====
section
/-!
DEFINITION. What a stream of commands computes: sequences of commands, the pseudo-instruction HASH, the closed form of a
hash, and the source's step-by-step reading of ABSORB. None of these is called by `step`; claims are stated in them.

Rules: `43_engine.md` R128 (the step-by-step ABSORB), R135 (Hash), R138 (chaining over COMPRESS); `30_encoding.md` R71 (the
pseudo-instructions); `20_memory.md` R47 (a sequence of commands is the composition of their effects).
-/

namespace Sys2Proof.Machine

/-- The effects of a sequence of commands, one after another, stopping where one stops (R47). -/
def execAll : List Instr → State → Host.Outcome State Fault Refusal
  | [], s => .next s
  | i :: is, s =>
    match exec i s with
    | .next t => execAll is t
    | .fault r => .fault r
    | .refused r => .refused r

/-- `V_k = CF(V_{k-1}, B_k)` over the first `q` 64-byte blocks of a byte string (R129, R135). -/
def chainBlocks : Nat → Chain → List Byte → Chain
  | 0, v, _ => v
  | q + 1, v, data => chainBlocks q (cf v (blockOf (data.take 64))) (data.drop 64)

/-- `Hash(m)` in closed form: the digest of the state chained from IV over the blocks of `m ‖ Pad(|m|)` (R135). -/
def hashWith (c : Config) (m : List Byte) : List Byte :=
  let str := m ++ pad m.length
  stateEnc (chainBlocks (str.length / 64) c.iv str)

/-- Hash on this hardware, with the IV of R27. -/
def hashOf (m : List Byte) : List Byte := hashWith Config.hw m

/-- A message cut into consecutive pieces of at most 65535 bytes, one empty piece for the empty message (R71); `fuel` bounds
the number of pieces. -/
def cutPieces : Nat → List Byte → List (List Byte)
  | 0, m => [m]
  | fuel + 1, m => if m.length ≤ maxLen then [m] else m.take maxLen :: cutPieces fuel (m.drop maxLen)

/-- HASH, HASH.U and HASH.V: INIT, the ABSORBs of the pieces, FINAL (R71). -/
def hashCommands (bk : Backend) (m : List Byte) : List Instr :=
  .init bk :: (cutPieces m.length m).map .absorb ++ [.final]

/-- V and the bytes BUF[0..IDX−1] inside one ABSORB; `held` may hold 64 bytes for a moment (R23). -/
structure Absorbing where
  v : Chain
  held : List Byte
deriving DecidableEq, Repr

/-- The source's first two steps (R128): if the buffer holds bytes, fill it from the input, and compress and empty it if it
became full; also the number of input bytes used. -/
def fillBuffer (pay : List Byte) (x : Absorbing) : Absorbing × Nat :=
  if x.held.length = 0 then (x, 0)
  else
    let t := min pay.length (64 - x.held.length)
    let held := x.held ++ pay.take t
    if held.length = 64 then ({ v := cf x.v (blockOf held), held := [] }, t) else ({ x with held := held }, t)

/-- The source's third step (R128): compress 64 input bytes at a time, "directly from input", `n` times. -/
def absorbDirect : Nat → List Byte → Chain → Chain
  | 0, _, v => v
  | n + 1, data, v => absorbDirect n (data.drop 64) (cf v (blockOf (data.take 64)))

/-- ABSORB as the source tells it step by step (R128); the last step copies what remains behind the held bytes. -/
def absorbStepwise (pay : List Byte) (x : Absorbing) : Absorbing :=
  let filled := fillBuffer pay x
  let left := pay.drop filled.2
  let n := left.length / 64
  { v := absorbDirect n left filled.1.v, held := filled.1.held ++ left.drop (64 * n) }

end Sys2Proof.Machine
end

