-- ==== Sys2Proof/Machine/Assembler.lean ====
section
/-!
DEFINITION. The textual form of a command stream and of a response.

Rules: `30_encoding.md` R70 (the textual form), R71 (the pseudo-instructions). Nothing of this is called by `step`: the host
writes packets, and this file says which packets a line of text stands for. A line is a list of characters; `none` where the
text is not in R70's form.
-/

namespace Sys2Proof.Machine

/-- A line or a word of text. -/
abbrev Text := List Char

/-- The pieces of a line. -/
inductive Token where
  /-- A mnemonic or a backend letter. -/
  | name (t : Text)
  /-- A decimal number, the argument of PADBYTES. -/
  | number (n : Nat)
  /-- A byte-string literal. -/
  | bytes (b : List Byte)
  /-- A state literal. -/
  | state (v : Chain)
  | comma
  | leftParen
  | rightParen
deriving DecidableEq, Repr

/-- What the text read so far is inside of. -/
inductive Scanning where
  | between
  /-- After `;`: the rest of the line. -/
  | comment
  | name (t : Text)
  | number (n : Nat)
  /-- After the `x` that may begin a hexadecimal literal. -/
  | afterX
  /-- Inside a text literal. -/
  | text (b : List Byte)
  /-- Inside a hexadecimal literal: the whole bytes, and the first digit of the next one. -/
  | hex (b : List Byte) (high : Option (BitVec 4))
  /-- Inside a state literal: the whole words, and the digits of the next one. -/
  | state (ws : List Word) (digits : List (BitVec 4))
deriving DecidableEq, Repr

/-- The double quote, which bounds a byte-string literal. -/
def quote : Char := Char.ofNat 34

/-- The value of a hexadecimal digit, either case (log entry 14). -/
def hexDigit (c : Char) : Option (BitVec 4) :=
  if 48 ≤ c.toNat ∧ c.toNat ≤ 57 then some (BitVec.ofNat 4 (c.toNat - 48))
  else if 65 ≤ c.toNat ∧ c.toNat ≤ 70 then some (BitVec.ofNat 4 (c.toNat - 55))
  else if 97 ≤ c.toNat ∧ c.toNat ≤ 102 then some (BitVec.ofNat 4 (c.toNat - 87))
  else none

/-- An upper-case letter or the dot of a mnemonic (R70: "mnemonics are upper case"). -/
def nameChar (c : Char) : Bool := (65 ≤ c.toNat && c.toNat ≤ 90) || c == '.'

/-- The digits of a word, at most 8, most significant first. -/
def wordOfDigits (ds : List (BitVec 4)) : Word := ds.foldl (fun w d => (w <<< 4) ||| d.zeroExtend 32) 0#32

/-- The state literal's words as a chaining state, word 0 first: exactly 8. -/
def chainOfWords : List Word → Option Chain
  | [w0, w1, w2, w3, w4, w5, w6, w7] => some { v0 := w0, v1 := w1, v2 := w2, v3 := w3, v4 := w4, v5 := w5, v6 := w6, v7 := w7 }
  | _ => none

/-- End the state literal's current word, if one was begun. -/
def endWord (ws : List Word) (digits : List (BitVec 4)) : List Word :=
  if digits = [] then ws else ws ++ [wordOfDigits digits]

/-- Begin a piece: the characters that may follow a blank, a comma, a parenthesis or a literal's end. The braces of a state
literal are the characters 123 and 125. -/
def beginPiece (c : Char) : Option (List Token × Scanning) :=
  if c = ' ' then some ([], .between)
  else if c = ';' then some ([], .comment)
  else if c = ',' then some ([.comma], .between)
  else if c = '(' then some ([.leftParen], .between)
  else if c = ')' then some ([.rightParen], .between)
  else if c = quote then some ([], .text [])
  else if c = 'x' then some ([], .afterX)
  else if c.toNat = 123 then some ([], .state [] [])
  else if nameChar c then some ([], .name [c])
  else if 48 ≤ c.toNat ∧ c.toNat ≤ 57 then some ([], .number (c.toNat - 48))
  else none

/-- One character in a text literal (R70: "printable ASCII characters, one byte per character, no terminator and no
escapes"). -/
def scanText (b : List Byte) (c : Char) : Option (List Token × Scanning) :=
  if c = quote then some ([.bytes b], .between)
  else if 32 ≤ c.toNat ∧ c.toNat ≤ 126 then some ([], .text (b ++ [BitVec.ofNat 8 c.toNat]))
  else none

/-- One character in a hexadecimal literal (R70: "an even number of hexadecimal digits (two per byte, first byte first)"). -/
def scanHex (b : List Byte) (high : Option (BitVec 4)) (c : Char) : Option (List Token × Scanning) :=
  match high, hexDigit c with
  | none, some d => some ([], .hex b (some d))
  | some h, some d => some ([], .hex (b ++ [h ++ d]) none)
  | none, none => if c = quote then some ([.bytes b], .between) else none
  | some _, none => none

/-- One character in a state literal (R70: "8 hexadecimal words separated by spaces"). -/
def scanState (ws : List Word) (digits : List (BitVec 4)) (c : Char) : Option (List Token × Scanning) :=
  match hexDigit c with
  | some d => if digits.length < 8 then some ([], .state ws (digits ++ [d])) else none
  | none =>
    if c = ' ' then some ([], .state (endWord ws digits) [])
    else if c.toNat = 125 then (chainOfWords (endWord ws digits)).map fun v => ([.state v], .between)
    else none

/-- One character: the pieces it ends, and what the text is inside of after it. -/
def scanChar (m : Scanning) (c : Char) : Option (List Token × Scanning) :=
  match m with
  | .between => beginPiece c
  | .comment => some ([], .comment)
  | .name t =>
    if nameChar c then some ([], .name (t ++ [c])) else (beginPiece c).map fun r => (.name t :: r.1, r.2)
  | .number n =>
    if 48 ≤ c.toNat ∧ c.toNat ≤ 57 then some ([], .number (10 * n + (c.toNat - 48)))
    else (beginPiece c).map fun r => (.number n :: r.1, r.2)
  | .afterX => if c = quote then some ([], .hex [] none) else none
  | .text b => scanText b c
  | .hex b high => scanHex b high c
  | .state ws digits => scanState ws digits c

/-- The end of the line: a literal must be closed. -/
def scanEnd : Scanning → Option (List Token)
  | .between => some []
  | .comment => some []
  | .name t => some [.name t]
  | .number n => some [.number n]
  | .afterX => none
  | .text _ => none
  | .hex _ _ => none
  | .state _ _ => none

/-- The pieces of a line. -/
def scan : Scanning → Text → Option (List Token)
  | m, [] => scanEnd m
  | m, c :: cs =>
    match scanChar m c with
    | none => none
    | some (ts, m') => (scan m' cs).map fun rest => ts ++ rest

/-- `PADBYTES n`, "an assembler-time byte-string literal equal to Pad(n)", replaced by that literal (R71). -/
def expandPadBytes : List Token → List Token
  | .name ['P', 'A', 'D', 'B', 'Y', 'T', 'E', 'S'] :: .number n :: ts => .bytes (pad n) :: expandPadBytes ts
  | t :: ts => t :: expandPadBytes ts
  | [] => []

/-- The backend letters of INIT (R70). -/
def backendOfLetter : Text → Option Backend
  | ['S'] => some .scalar
  | ['U'] => some .unrolled
  | ['V'] => some .vector
  | _ => none

/-- The compress record of a state and a 64-byte block literal (R73). -/
def recordBytes (v : Chain) (block : List Byte) : Option (List Byte) :=
  if block.length = 64 then some (stateEnc v ++ block) else none

/-- The further `, (<state>, <block>)` pairs of COMPRESS.V, as records. -/
def morePairs : List Token → Option (List (List Byte))
  | .comma :: .leftParen :: .state v :: .comma :: .bytes b :: .rightParen :: ts =>
    match recordBytes v b, morePairs ts with
    | some r, some rs => some (r :: rs)
    | _, _ => none
  | [] => some []
  | _ => none

/-- The pairs of COMPRESS.V, as records; a line may give none, which makes the illegal command with N = 0. -/
def pairs : List Token → Option (List (List Byte))
  | [] => some []
  | ts => morePairs (.comma :: ts)

/-- ARG = number of pairs, which must fit the field (R70, R56). -/
def assembleV (recs : List (List Byte)) : Option (List Instr) :=
  if recs.length ≤ 255 then some [.compressV (BitVec.ofNat 8 recs.length) recs.flatten] else none

/-- INIT's operand: a backend letter, "default S" (R70). -/
def assembleInit : List Token → Option (List Instr)
  | [] => some [.init .scalar]
  | [.name b] => (backendOfLetter b).map fun bk => [.init bk]
  | _ => none

/-- ABSORB's operand: at most 65535 bytes (R70). -/
def assembleAbsorb : List Token → Option (List Instr)
  | [.bytes b] => if b.length ≤ maxLen then some [.absorb b] else none
  | _ => none

/-- FINAL has no operand (R70). -/
def assembleFinal : List Token → Option (List Instr)
  | [] => some [.final]
  | _ => none

/-- The operands of COMPRESS.S and COMPRESS.U: a state and a block (R70). -/
def assembleRecord (command : List Byte → Instr) : List Token → Option (List Instr)
  | [.state v, .comma, .bytes b] => (recordBytes v b).map fun r => [command r]
  | _ => none

/-- A pseudo-instruction's operand: a byte string of any length (R71). -/
def assembleHash (bk : Backend) : List Token → Option (List Instr)
  | [.bytes b] => some (hashCommands bk b)
  | _ => none

/-- The commands of a mnemonic and its operands: one command, or R71's expansion. -/
def assembleCommand (m : Text) (ts : List Token) : Option (List Instr) :=
  if m = ['I', 'N', 'I', 'T'] then assembleInit ts
  else if m = ['A', 'B', 'S', 'O', 'R', 'B'] then assembleAbsorb ts
  else if m = ['F', 'I', 'N', 'A', 'L'] then assembleFinal ts
  else if m = ['C', 'O', 'M', 'P', 'R', 'E', 'S', 'S', '.', 'S'] then assembleRecord .compressS ts
  else if m = ['C', 'O', 'M', 'P', 'R', 'E', 'S', 'S', '.', 'U'] then assembleRecord .compressU ts
  else if m = ['C', 'O', 'M', 'P', 'R', 'E', 'S', 'S', '.', 'V'] then (pairs ts).bind assembleV
  else if m = ['H', 'A', 'S', 'H'] then assembleHash .scalar ts
  else if m = ['H', 'A', 'S', 'H', '.', 'U'] then assembleHash .unrolled ts
  else if m = ['H', 'A', 'S', 'H', '.', 'V'] then assembleHash .vector ts
  else none

/-- The commands of a line's pieces; none for a line that holds at most a comment. -/
def assembleTokens : List Token → Option (List Instr)
  | [] => some []
  | .name m :: ts => assembleCommand m ts
  | _ => none

/-- The commands a line of text stands for (R70, R71). -/
def assemble (line : Text) : Option (List Instr) :=
  (scan .between line).bind fun ts => assembleTokens (expandPadBytes ts)

/-- The packets of a line, one after another as the host writes them. -/
def assembleBytes (line : Text) : Option (List Byte) := (assemble line).map fun is => is.flatMap encode

/-- An upper-case hexadecimal digit. -/
def digitChar (d : BitVec 4) : Char := Char.ofNat (if d.toNat < 10 then 48 + d.toNat else 55 + d.toNat)

/-- A byte string as a hexadecimal literal. -/
def hexText (b : List Byte) : Text :=
  ['x', quote] ++ b.flatMap (fun x => [digitChar (x.extractLsb' 4 4), digitChar (x.extractLsb' 0 4)]) ++ [quote]

/-- The written form of a response packet, by its STATUS (R70); `none` for a STATUS the core never sends. -/
def responseText (r : List Byte) : Option Text :=
  let arrow : Text := ['-', '>', ' ']
  match r with
  | status :: _ :: _ :: _ :: payload =>
    if status = 0x00#8 then
      some (arrow ++ ['O', 'K'] ++ if payload = [] then [] else ' ' :: hexText payload)
    else if status = 0x01#8 then some (arrow ++ ['I', 'n', 'v', 'a', 'l', 'i', 'd', 'S', 't', 'a', 't', 'e'])
    else if status = 0x02#8 then
      some (arrow ++ ['I', 'l', 'l', 'e', 'g', 'a', 'l', 'C', 'o', 'm', 'm', 'a', 'n', 'd'])
    else none
  | _ => none

/-! ### The lines R70 and R71 list, as data, and their written form -/

/-- A byte-string literal in one of its written forms (R70, R71). -/
inductive Literal where
  /-- `x"..."`: two hexadecimal digits per byte. -/
  | hex (b : List Byte)
  /-- `"..."`: one printable character per byte. -/
  | ascii (t : Text)
  /-- `PADBYTES n`, `n` in decimal digits, the most significant first. -/
  | padBytes (ds : List (Fin 10))
deriving DecidableEq, Repr

/-- A character that a text literal may hold: printable ASCII, but for the quote that ends it (R70: "no escapes"). -/
def textChar (c : Char) : Bool := 32 ≤ c.toNat && c.toNat ≤ 126 && c != quote

/-- The number that decimal digits stand for. -/
def decimalValue (ds : List (Fin 10)) : Nat := ds.foldl (fun n d => 10 * n + d.val) 0

/-- The bytes a literal stands for. -/
def Literal.value : Literal → List Byte
  | .hex b => b
  | .ascii t => t.map fun c => BitVec.ofNat 8 c.toNat
  | .padBytes ds => pad (decimalValue ds)

/-- A text literal holds printable characters, a number has a digit. -/
def Literal.wf : Literal → Bool
  | .hex _ => true
  | .ascii t => t.all textChar
  | .padBytes ds => ds != []

/-- The mnemonic of a padding literal and its digits. -/
def padBytesText (ds : List (Fin 10)) : Text :=
  ['P', 'A', 'D', 'B', 'Y', 'T', 'E', 'S', ' '] ++ ds.map fun d => Char.ofNat (48 + d.val)

/-- The written form of a literal. -/
def Literal.text : Literal → Text
  | .hex b => hexText b
  | .ascii t => quote :: (t ++ [quote])
  | .padBytes ds => padBytesText ds

/-- A word's 8 hexadecimal digits, the most significant first. -/
def wordDigits (w : Word) : List (BitVec 4) := (be32enc w).flatMap fun x => [x.extractLsb' 4 4, x.extractLsb' 0 4]

/-- A word as text. -/
def wordText (w : Word) : Text := (wordDigits w).map digitChar

/-- A state literal: "8 hexadecimal words separated by spaces" in braces, word 0 first (R70). -/
def stateText (v : Chain) : Text :=
  [Char.ofNat 123] ++ wordText v.v0 ++
    [v.v1, v.v2, v.v3, v.v4, v.v5, v.v6, v.v7].flatMap (fun w => ' ' :: wordText w) ++ [Char.ofNat 125]

/-- A line of R70 or R71 with its operands. -/
inductive Line where
  /-- `INIT`, or `INIT` and a backend letter. -/
  | init (bk : Option Backend)
  | absorb (l : Literal)
  | final
  | compressS (v : Chain) (block : Literal)
  | compressU (v : Chain) (block : Literal)
  /-- The pairs in order, lane 0 first; with no pair it is the illegal command with N = 0. -/
  | compressV (pairs : List (Chain × Literal))
  /-- `HASH`, `HASH.U`, `HASH.V`. -/
  | hash (bk : Backend) (l : Literal)
deriving DecidableEq, Repr

/-- What R70 asks of a line's operands: "at most 65535" bytes for ABSORB, 64 bytes for a block, a number of pairs that ARG
can hold. -/
def Line.wf : Line → Bool
  | .init _ => true
  | .absorb l => l.wf && decide (l.value.length ≤ maxLen)
  | .final => true
  | .compressS _ b => b.wf && decide (b.value.length = 64)
  | .compressU _ b => b.wf && decide (b.value.length = 64)
  | .compressV ps => decide (ps.length ≤ 255) && ps.all fun p => p.2.wf && decide (p.2.value.length = 64)
  | .hash _ l => l.wf

/-- A backend's letter (R70). -/
def backendLetter : Backend → Char
  | .scalar => 'S'
  | .unrolled => 'U'
  | .vector => 'V'

/-- The mnemonic of HASH with a backend (R71). -/
def hashName : Backend → Text
  | .scalar => ['H', 'A', 'S', 'H']
  | .unrolled => ['H', 'A', 'S', 'H', '.', 'U']
  | .vector => ['H', 'A', 'S', 'H', '.', 'V']

/-- `<state>, <block>`. -/
def recordText (v : Chain) (block : Literal) : Text := stateText v ++ [',', ' '] ++ block.text

/-- The further pairs of COMPRESS.V, each after a comma. -/
def morePairsText (ps : List (Chain × Literal)) : Text :=
  ps.flatMap fun p => [',', ' ', '('] ++ recordText p.1 p.2 ++ [')']

/-- The pairs of COMPRESS.V. -/
def pairsText : List (Chain × Literal) → Text
  | [] => []
  | p :: ps => ['('] ++ recordText p.1 p.2 ++ [')'] ++ morePairsText ps

/-- The written form of a line, without a comment. -/
def Line.text : Line → Text
  | .init none => ['I', 'N', 'I', 'T']
  | .init (some bk) => ['I', 'N', 'I', 'T', ' '] ++ [backendLetter bk]
  | .absorb l => ['A', 'B', 'S', 'O', 'R', 'B', ' '] ++ l.text
  | .final => ['F', 'I', 'N', 'A', 'L']
  | .compressS v b => ['C', 'O', 'M', 'P', 'R', 'E', 'S', 'S', '.', 'S', ' '] ++ recordText v b
  | .compressU v b => ['C', 'O', 'M', 'P', 'R', 'E', 'S', 'S', '.', 'U', ' '] ++ recordText v b
  | .compressV ps => ['C', 'O', 'M', 'P', 'R', 'E', 'S', 'S', '.', 'V', ' '] ++ pairsText ps
  | .hash bk l => hashName bk ++ [' '] ++ l.text

/-- The commands a line is written for (R70, R71). -/
def Line.commands : Line → List Instr
  | .init none => [.init .scalar]
  | .init (some bk) => [.init bk]
  | .absorb l => [.absorb l.value]
  | .final => [.final]
  | .compressS v b => [.compressS (stateEnc v ++ b.value)]
  | .compressU v b => [.compressU (stateEnc v ++ b.value)]
  | .compressV ps => [.compressV (BitVec.ofNat 8 ps.length) (ps.flatMap fun p => stateEnc p.1 ++ p.2.value)]
  | .hash bk l => hashCommands bk l.value

end Sys2Proof.Machine
end

