-- ==== Sys2Proof/Safety.lean ====
section
/-!
DEFINITION. The terms claims are stated in: the invariant of the core, the states its host can bring it to, the engine context,
and the header's illegal cases as the spec lists them.
-/

namespace Sys2Proof.Machine

/-- The invariant of the core between commands. -/
structure State.Inv (s : State) : Prop where
  /-- BUF keeps its canonical form. -/
  bufCanonical : s.buf.wf
  /-- Exactly the bytes BUF[0..IDX−1] are meaningful (R23). -/
  bufHoldsPending : ∀ a, (s.buf.read a).isSome = decide (a < s.idx.val)
  /-- While ST = ACTIVE, `IDX = (NBITS div 8) mod 64` (R24). -/
  fillCount : s.st = .active → s.idx.val = s.nbits.toNat / 8 % 64
  /-- While ST = ACTIVE, NBITS counts whole bytes (R24: `NBITS = 8 · n mod 2^64`). -/
  wholeBytes : s.st = .active → s.nbits.toNat % 8 = 0
  /-- The transient state holds no value (R33). -/
  idle : s.comp = none

/-- The states the core can be in: from reset, by the host's two actions and by steps. -/
inductive Reachable : State → Prop where
  /-- The state right after reset. -/
  | reset : Reachable State.reset
  /-- The host sends bytes. -/
  | send (s : State) (bytes : List Byte) : Reachable s → Reachable (s.send bytes)
  /-- The host resets the core. -/
  | resetNow (s : State) : Reachable s → Reachable s.resetNow
  /-- The core takes a step. -/
  | step (s t : State) : Reachable s → step s = .next t → Reachable t

/-- The EngineContext and BKSEL: all the state that persists from one command to the next (R20). -/
structure Context where
  v : Chain
  nbits : BitVec 64
  buf : Memory
  idx : Fin 64
  st : EngineStatus
  bksel : Backend
deriving DecidableEq, Repr

/-- The persistent state of a machine state. -/
def State.context (s : State) : Context :=
  { v := s.v, nbits := s.nbits, buf := s.buf, idx := s.idx, st := s.st, bksel := s.bksel }

/-- Two states that no host can tell apart: equal, or both TERMINAL with the same ports, whatever their contexts (R35, U9). -/
def SameToHost (s s' : State) : Prop :=
  s = s' ∨ (s.st = .terminal ∧ s'.st = .terminal ∧ s.cmd = s'.cmd ∧ s.rsp = s'.rsp)

/-- The illegal encodings, item by item as R67 lists them. -/
def IllegalHeader (c : Config) (opc arg : Byte) (len : Nat) : Prop :=
  opc ∉ [0x01#8, 0x02#8, 0x03#8, 0x10#8, 0x11#8, 0x12#8] ∨
  (opc = 0x01#8 ∧ (arg.extractLsb' 2 6 ≠ 0#6 ∨ arg.extractLsb' 0 2 = 3#2 ∨ len ≠ 0)) ∨
  (opc = 0x02#8 ∧ arg ≠ 0#8) ∨
  (opc = 0x03#8 ∧ (arg ≠ 0#8 ∨ len ≠ 0)) ∨
  ((opc = 0x10#8 ∨ opc = 0x11#8) ∧ (arg ≠ 0#8 ∨ len ≠ 96)) ∨
  (opc = 0x12#8 ∧ (arg = 0#8 ∨ c.nlanes < arg.toNat ∨ len ≠ 96 * arg.toNat))

/-- A command packet with the header fields `opc`, `arg`, `len` and the payload `pay` (R55, R56). -/
def packet (opc arg : Byte) (len : BitVec 16) (pay : List Byte) : List Byte := be32enc (opc ++ arg ++ len) ++ pay

/-- STATUS, byte 0 of a response packet (R57). -/
def rspStatus (r : List Byte) : Byte := r.getD 0 0

/-- ROPC, byte 1 of a response packet (R57). -/
def rspOpc (r : List Byte) : Byte := r.getD 1 0

/-- RLEN, bytes 2 and 3 of a response packet (R57). -/
def rspLen (r : List Byte) : Nat := (r.getD 2 0).toNat * 256 + (r.getD 3 0).toNat

/-- The payload of a response packet, what follows its 4-byte header (R55). -/
def rspPayload (r : List Byte) : List Byte := r.drop 4

/-- The lifecycle of R125: ST after a command, and the STATUS of its response, by ST before it. -/
def lifecycle : Instr → EngineStatus → EngineStatus × Byte
  | .init _, _ => (.active, 0x00#8)
  | .absorb _, .active => (.active, 0x00#8)
  | .absorb _, .terminal => (.terminal, 0x01#8)
  | .final, .active => (.terminal, 0x00#8)
  | .final, .terminal => (.terminal, 0x01#8)
  | .compressS _, st => (st, 0x00#8)
  | .compressU _, st => (st, 0x00#8)
  | .compressV _ _, st => (st, 0x00#8)

/-- Two blocks xored byte by byte. -/
def xorBlock (x y : Block) : Block := Vector.ofFn fun i => x[i.val] ^^^ y[i.val]

/-- The register update of a round as the source writes it, one assignment after another: "D=C; C=rotl(B,9); B=A; A=TT1; H=G;
G=rotl(F,19); F=E; E=P0(TT2)" (R97). -/
def sequentialUpdate (r : Regs) (t : Wires) : Regs :=
  let r := { r with d := r.c }
  let r := { r with c := rotl r.b 9 }
  let r := { r with b := r.a }
  let r := { r with a := t.tt1 }
  let r := { r with h := r.g }
  let r := { r with g := rotl r.f 19 }
  let r := { r with f := r.e }
  { r with e := p0 t.tt2 }

end Sys2Proof.Machine
end

