-- ==== Sys2Proof/Certificates/Slice0/Obligations.lean ====
section
/-!
DEFINITION. The statements about the core that the provers settle, each with the rules of `spec/` it rests on.

Where a statement says that an address of BUF reads as `none`, that is the model's way to hold BUF[IDX..63] unspecified
(R23, log entry 4); where it says `comp := none`, that the transient state holds no value (R33, log entry 5).
-/

open Sys2Proof Sys2Proof.Machine

/-! ### Encoding and decoding -/

/-- R55, R56, R60 to R66: the decoder reads back every well-formed command from its packet, with every operand, whatever bytes
follow it, for every NLANES. -/
def Obligations.DecodeOfEncodeIsTheCommand : Prop :=
  ∀ (c : Config) (i : Instr) (rest : List Byte), i.wf c = true → decodeWith c (encode i ++ rest) = .command i rest

/-- R58, R59: what the decoder accepts is a well-formed command, and its packet is exactly the bytes read: no bit of a legal
packet is ignored. -/
def Obligations.EncodeOfDecodeIsThePacket : Prop :=
  ∀ (c : Config) (bytes : List Byte) (i : Instr) (rest : List Byte),
    decodeWith c bytes = .command i rest → i.wf c = true ∧ encode i ++ rest = bytes

/-- R58, R67: a whole packet is illegal exactly when its header is in one of R67's six items, and otherwise it is the command
with its OPC, ARG and payload; either way exactly its own bytes are consumed. -/
def Obligations.IllegalHeadersAreExactlyTheListed : Prop :=
  ∀ (c : Config) (opc arg : Byte) (len : BitVec 16) (pay rest : List Byte), pay.length = len.toNat →
    (IllegalHeader c opc arg len.toNat →
      ∃ why, decodeWith c (packet opc arg len pay ++ rest) = .illegal opc why rest) ∧
    (¬ IllegalHeader c opc arg len.toNat →
      ∃ i, decodeWith c (packet opc arg len pay ++ rest) = .command i rest ∧
        i.opcode = opc ∧ i.arg = arg ∧ i.payload = pay)

/-- R67: each of the listed headers is rejected with IllegalCommand, in every state; none executes as another command, as a
no-operation or as a hint: no architectural state is written (R155).
NLANES is this hardware's 8, the model's choice of the parameter (log entry 2). -/
def Obligations.IllegalCommandIsRejected : Prop :=
  ∀ (s : State) (opc arg : Byte) (len : BitVec 16) (pay rest : List Byte), pay.length = len.toNat →
    IllegalHeader Config.hw opc arg len.toNat → s.cmd = packet opc arg len pay ++ rest →
      step s = .next { s with cmd := rest, comp := none, rsp := s.rsp ++ [rspPacket 0x02#8 opc []] }

/-- Words written out from the encodings of R60 to R65 decode to the commands they stand for, and the reserved words beside
them are refused.
NLANES is this hardware's 8, the model's choice of the parameter (log entry 2).
How a table word numbers payload bits, and that payload bytes without bits are zero, is the model's reading (log entry 12). -/
def Obligations.SpecWordsDecodeAsListed : Prop :=
  decodeTableWord 32 0x01000000 = some (.init .scalar) ∧
  decodeTableWord 32 0x01010000 = some (.init .unrolled) ∧
  decodeTableWord 32 0x01020000 = some (.init .vector) ∧
  decodeTableWord 32 0x01030000 = none ∧
  decodeTableWord 32 0x01040000 = none ∧
  decodeTableWord 32 0x02000000 = some (.absorb []) ∧
  decodeTableWord 64 0x6162630002000003 = some (.absorb [0x61#8, 0x62#8, 0x63#8]) ∧
  decodeTableWord 32 0x03000000 = some .final ∧
  decodeTableWord 32 0x10000060 = some (.compressS (List.replicate 96 0#8)) ∧
  decodeTableWord 32 0x11000060 = some (.compressU (List.replicate 96 0#8)) ∧
  decodeTableWord 32 0x12010060 = some (.compressV 1#8 (List.replicate 96 0#8)) ∧
  decodeTableWord 32 0x12000000 = none ∧
  decodeTableWord 32 0x12090360 = none

/-- R5, R58: with a whole command packet at the head of the command port, a step is that command's meaning on the state whose
port is past the packet. -/
def Obligations.StepRunsTheDecodedCommand : Prop :=
  (∀ (s : State) (i : Instr) (rest : List Byte), decode s.cmd = .command i rest →
    step s = exec i { s with cmd := rest }) ∧
  (∀ (s : State) (i : Instr) (rest : List Byte), i.wf Config.hw = true → s.cmd = encode i ++ rest →
    step s = exec i { s with cmd := rest })

/-- R69: the length of a command packet is 4 + HDR[15:0] for every OPC and exactly so many bytes are taken; the length of a
response packet is 4 + RHDR[15:0]; a stream that ends inside a packet leaves the core waiting, and nothing changes.
That the waiting core takes steps which change nothing is the model's reading of R69 (log entry 10). -/
def Obligations.PacketLengthsComeFromHeaders : Prop :=
  (∀ (s : State) (hdr : Word) (pay rest : List Byte), s.Inv → pay.length = hdrLen hdr →
    s.cmd = be32enc hdr ++ pay ++ rest →
      ∃ t r, step s = .next t ∧ t.cmd = rest ∧ t.rsp = s.rsp ++ [r] ∧ r.length = 4 + rspLen r) ∧
  (∀ s : State, s.cmd.length < 4 → step s = .next s) ∧
  (∀ (s : State) (hdr : Word) (part : List Byte), part.length < hdrLen hdr → s.cmd = be32enc hdr ++ part →
    step s = .next s)

/-- R55, R57, R58, R150, R154, R155, R156: every whole packet gets exactly one response, which names its OPC; STATUS is
IllegalCommand where the header is illegal, else InvalidState where it is ABSORB or FINAL in TERMINAL, else OK; a rejected
packet has no response payload and writes nothing: the state after it differs in the two ports alone, so that nothing is latched.
NLANES is this hardware's 8, the model's choice of the parameter (log entry 2). -/
def Obligations.EveryPacketGetsOneResponse : Prop :=
  ∀ (s : State) (opc arg : Byte) (len : BitVec 16) (pay rest : List Byte), s.Inv → pay.length = len.toNat →
    s.cmd = packet opc arg len pay ++ rest →
      ∃ t r, step s = .next t ∧ t.cmd = rest ∧ t.rsp = s.rsp ++ [r] ∧ rspOpc r = opc ∧ r.length = 4 + rspLen r ∧
        (IllegalHeader Config.hw opc arg len.toNat → rspStatus r = 0x02#8) ∧
        (¬ IllegalHeader Config.hw opc arg len.toNat → (opc = 0x02#8 ∨ opc = 0x03#8) → s.st = .terminal →
          rspStatus r = 0x01#8) ∧
        (¬ IllegalHeader Config.hw opc arg len.toNat → ¬ ((opc = 0x02#8 ∨ opc = 0x03#8) ∧ s.st = .terminal) →
          rspStatus r = 0x00#8) ∧
        (rspStatus r ≠ 0x00#8 → rspLen r = 0 ∧ t = { s with cmd := rest, rsp := s.rsp ++ [r] })

/-- R163: re-sending a rejected command in the same state gives the same fault. -/
def Obligations.RejectedCommandFailsTheSameWayAgain : Prop :=
  ∀ (s t : State) (opc arg : Byte) (len : BitVec 16) (pay rest r : List Byte), pay.length = len.toNat →
    s.cmd = packet opc arg len pay ++ (packet opc arg len pay ++ rest) →
    step s = .next t → t.rsp = s.rsp ++ [r] → rspStatus r ≠ 0x00#8 →
      ∃ u, step t = .next u ∧ u.rsp = t.rsp ++ [r] ∧ u.cmd = rest ∧ u.context = s.context

/-- R121: NLANES decides only which COMPRESS.V headers are legal; a command legal under two lane counts decodes and answers
alike under both. -/
def Obligations.LaneCountOnlyGatesHeaders : Prop :=
  (∀ (c c' : Config) (bytes rest : List Byte) (i : Instr), decodeWith c bytes = .command i rest → i.wf c' = true →
    decodeWith c' bytes = .command i rest) ∧
  (∀ (c c' : Config) (n : Byte) (pay : List Byte) (s : State),
    Instr.wf c (.compressV n pay) = true → Instr.wf c' (.compressV n pay) = true →
    execCompressVWith c n pay s = execCompressVWith c' n pay s)

/-! ### Words, bytes and the MessageScheduler -/

/-- R10: rotl(x, 0) = x, the shift formula, and bit i of x becomes bit (i + n) mod 32 of the result.
The definition of rotl is presumed, as the spec marks it (log entry 9). -/
def Obligations.RotationMovesEveryBit : Prop :=
  ∀ x : Word, rotl x 0 = x ∧
    ∀ n ≤ 31,
      (1 ≤ n → (rotl x n).toNat = ((x.toNat <<< n) ||| (x.toNat >>> (32 - n))) % 2 ^ 32) ∧
      ∀ i < 32, (rotl x n).getLsbD ((i + n) % 32) = x.getLsbD i

/-- R12's last sentence: decoding a state image gives the state back, and encoding a decoded 32-byte image gives the image
back. -/
def Obligations.StateImagesRoundTrip : Prop :=
  (∀ v : Chain, stateDec (stateEnc v) = v) ∧
  (∀ s : List Byte, s.length = 32 → stateEnc (stateDec s) = s)

/-- R133, R41: a digest is 32 bytes, word i big-endian at byte offset 4i; byte 0 is bits 31:24 of V[0], byte 31 is bits 7:0 of
V[7]. -/
def Obligations.DigestIsBigEndianWordByWord : Prop :=
  ∀ v : Chain, (stateEnc v).length = 32 ∧
    (∀ i < 8, (((stateEnc v).drop (4 * i)).take 4) = be32enc ((chainWords v).getD i 0)) ∧
    (stateEnc v).getD 0 0 = v.v0.extractLsb' 24 8 ∧ (stateEnc v).getD 31 0 = v.v7.extractLsb' 0 8

/-- R81, R83: W[0..15] are the block's big-endian words, and every later word up to W[67] is the recurrence over the five words
it names. -/
def Obligations.ScheduleFollowsTheRecurrence : Prop :=
  ∀ b : Block,
    (∀ i, (h : i < 16) → (expand b).w[i] = be32dec b[4 * i] b[4 * i + 1] b[4 * i + 2] b[4 * i + 3]) ∧
    (∀ i, (h : i < 68) → (h' : 16 ≤ i) →
      (expand b).w[i] =
        p1 ((expand b).w[i - 16] ^^^ (expand b).w[i - 9] ^^^ rotl (expand b).w[i - 3] 15)
          ^^^ rotl (expand b).w[i - 13] 7 ^^^ (expand b).w[i - 6])

/-- R84: W1[i] = W[i] xor W[i+4] for i in [0, 64), and a block whose 16 words are all equal has W1[0..11] = 0. -/
def Obligations.DerivedWordsAreXorsFourApart : Prop :=
  ∀ b : Block,
    (∀ i, (h : i < 64) → (expand b).w1[i] = (expand b).w[i] ^^^ (expand b).w[i + 4]) ∧
    ((∀ i, (h : i < 16) → (expand b).w[i] = (expand b).w[0]) → ∀ i, (h : i < 12) → (expand b).w1[i] = 0#32)

/-- R80, R82, R85: the expansion uses only xor and rotation, so it is linear over xor, word by word; the zero block expands to
zero words. -/
def Obligations.ExpansionIsLinearOverXor : Prop :=
  (∀ x y : Block,
    (∀ i, (h : i < 68) → (expand (xorBlock x y)).w[i] = (expand x).w[i] ^^^ (expand y).w[i]) ∧
    (∀ i, (h : i < 64) → (expand (xorBlock x y)).w1[i] = (expand x).w1[i] ^^^ (expand y).w1[i])) ∧
  (∀ i, (h : i < 68) → (expand (Vector.replicate 64 0#8)).w[i] = 0#32)

/-! ### The round, the compression function and the three backends -/

/-- R92: FF's two forms; in the second band each result bit is 1 exactly when at least two of the three input bits are;
FF(16, x, x, y) = x; the rule's example. -/
def Obligations.BandFunctionFfIsXorThenMajority : Prop :=
  (∀ (a b c : Word),
    (∀ j ≤ 15, ff j a b c = a ^^^ b ^^^ c) ∧
    (∀ j, 16 ≤ j → j ≤ 63 → ff j a b c = (a &&& b) ||| (a &&& c) ||| (b &&& c) ∧
      ∀ i < 32, ((ff j a b c).getLsbD i = true ↔
        2 ≤ (a.getLsbD i).toNat + (b.getLsbD i).toNat + (c.getLsbD i).toNat))) ∧
  (∀ x y : Word, ff 16 x x y = x) ∧
  ff 15 0x12345678#32 0x9ABCDEF0#32 0x0F1E2D3C#32 = 0x8796A5B4#32 ∧
  ff 16 0x12345678#32 0x9ABCDEF0#32 0x0F1E2D3C#32 = 0x1A3C5E78#32

/-- R93: GG's two forms; in the second band each result bit is the f bit where the e bit is 1 and the g bit where the e bit
is 0; the rule's corner cases and example. -/
def Obligations.BandFunctionGgIsXorThenChoose : Prop :=
  (∀ (e f g : Word),
    (∀ j ≤ 15, gg j e f g = e ^^^ f ^^^ g) ∧
    (∀ j, 16 ≤ j → j ≤ 63 → gg j e f g = (e &&& f) ||| (~~~e &&& g) ∧
      ∀ i < 32, (gg j e f g).getLsbD i = if e.getLsbD i then f.getLsbD i else g.getLsbD i)) ∧
  (∀ f g : Word, gg 16 0x00000000#32 f g = g ∧ gg 16 0xFFFFFFFF#32 f g = f) ∧
  gg 15 0x12345678#32 0x9ABCDEF0#32 0x0F1E2D3C#32 = 0x8796A5B4#32 ∧
  gg 16 0x12345678#32 0x9ABCDEF0#32 0x0F1E2D3C#32 = 0x1F3E7F74#32

/-- R82, R94: the two permutations: their rotation amounts, P1's linearity over xor, the rules' corner cases and examples. -/
def Obligations.PermutationsXorTheirRotations : Prop :=
  (∀ x : Word, p0 x = x ^^^ rotl x 9 ^^^ rotl x 17 ∧ p1 x = x ^^^ rotl x 15 ^^^ rotl x 23) ∧
  (∀ a b : Word, p1 (a ^^^ b) = p1 a ^^^ p1 b) ∧
  (p0 0x00000000#32 = 0x00000000#32 ∧ p0 0xFFFFFFFF#32 = 0xFFFFFFFF#32 ∧ p0 0x00000001#32 = 0x00020201#32 ∧
    p0 0x80000000#32 = 0x80010100#32 ∧ p0 0x12345678#32 = 0xD6688234#32) ∧
  (p1 0x00000000#32 = 0x00000000#32 ∧ p1 0xFFFFFFFF#32 = 0xFFFFFFFF#32 ∧ p1 0x00000001#32 = 0x00808001#32 ∧
    p1 0x80000000#32 = 0x80404000#32 ∧ p1 0x12345678#32 = 0x05014549#32)

/-- R90, R91: the round constant of each band; the unrolled backend's table holds the rotated round constants, and the rows 48
and 56 repeat the rows 16 and 24. -/
def Obligations.TableHoldsTheRotatedConstants : Prop :=
  (∀ j ≤ 15, tConst j = 0x79CC4519#32) ∧ (∀ j, 16 ≤ j → j ≤ 63 → tConst j = 0x7A879D8A#32) ∧
  (∀ j ≤ 63, tRot j = rotl (tConst j) (j % 32) ∧ ttabAt j = tRot j) ∧ ttab.length = 64 ∧
  ttabAt 0 = tLo ∧ ttabAt 32 = tHi ∧ (∀ j, 48 ≤ j → j ≤ 63 → ttabAt j = ttabAt (j - 32))

/-- R97: one round: the new registers are the rule's expressions in the old ones; the source's sequence of assignments gives
the same; the rule's example. -/
def Obligations.RoundComputesTheRulesExpressions : Prop :=
  (∀ (j : Nat) (r : Regs) (wj w1j : Word),
    let ss1 := rotl (rotl r.a 12 + r.e + rotl (tConst j) (j % 32)) 7
    let ss2 := ss1 ^^^ rotl r.a 12
    let tt1 := ff j r.a r.b r.c + r.d + ss2 + w1j
    let tt2 := gg j r.e r.f r.g + r.h + ss1 + wj
    let new : Regs :=
      { a := tt1, b := r.a, c := rotl r.b 9, d := r.c, e := p0 tt2, f := r.e, g := rotl r.f 19, h := r.g }
    round j r wj w1j = new ∧ sequentialUpdate r { ss1 := ss1, ss2 := ss2, tt1 := tt1, tt2 := tt2 } = new) ∧
  round 0 (seed Config.hw.iv) 0x61626380#32 0x61626380#32 =
    { a := 0xB9EDC12B#32, b := 0x7380166F#32, c := 0x29657292#32, d := 0x172442D7#32,
      e := 0xB2AD29F4#32, f := 0xA96F30BC#32, g := 0xC550B189#32, h := 0xE38DEE4D#32 }

/-- R96, R99, R100, R101: CF seeds A..H with the input state's words, runs Round(j) for j = 0, 1, ..., 63 on W[j] and W1[j] of the
block's own expansion, and xors the input state with A..H word by word; the two values R101 names (the zero state and block;
IV, whose value is log entry 1's, and the "abc" block). -/
def Obligations.CompressionFunctionIsSixtyFourRounds : Prop :=
  (∀ (v : Chain) (b : Block),
    let seeded : Regs :=
      { a := v.v0, b := v.v1, c := v.v2, d := v.v3, e := v.v4, f := v.v5, g := v.v6, h := v.v7 }
    let r := (List.range 64).foldl
      (fun r j => round j r ((expand b).w.toList.getD j 0) ((expand b).w1.toList.getD j 0)) seeded
    chainWords (cf v b) = List.zipWith (· ^^^ ·) (chainWords v) [r.a, r.b, r.c, r.d, r.e, r.f, r.g, r.h]) ∧
  chainWords (cf (stateDec (List.replicate 32 0x00#8)) (Vector.replicate 64 0x00#8)) =
    [0x2762550F#32, 0x18134933#32, 0xBA35CE4E#32, 0x0A757E65#32, 0x8C0E7205#32, 0xFE9E4FF6#32, 0x5AC5C88B#32, 0xA3649AC2#32] ∧
  chainWords (cf Config.hw.iv (blockOf ([0x61#8, 0x62#8, 0x63#8, 0x80#8] ++ List.replicate 59 0x00#8 ++ [0x18#8]))) =
    [0x66C7F0F4#32, 0x62EEEDD9#32, 0xD1F2D46B#32, 0xDC10E4E2#32, 0x4167C487#32, 0x5CF2F7A2#32, 0x297DA02B#32, 0x8F4BA8E0#32]

/-- R101, R111, R112, R114, R115, R116, R117: on every backend a compression's lanes answer CF of their own record, whatever the
other lanes hold. -/
def Obligations.EveryBackendComputesCf : Prop :=
  ∀ (bk : Backend) (recs : List (Chain × Block)),
    ((Compression.load recs).run bk).outputs = recs.map fun r => cf r.1 r.2

/-- R31, R99, R117: a compression runs exactly 64 rounds on every backend: the round counter starts at 0 and ends at 64, and the
latches, the schedules and the number of lanes are as loaded (R52: the block is read-only). -/
def Obligations.CompressionEndsAfterSixtyFourRounds : Prop :=
  ∀ (bk : Backend) (recs : List (Chain × Block)),
    (Compression.load recs).j.val = 0 ∧ ((Compression.load recs).run bk).j.val = 64 ∧
    (((Compression.load recs).run bk).lanes.map fun l => (l.lv, l.lb)) = recs ∧
    ∀ l ∈ ((Compression.load recs).run bk).lanes, l.w = (expand l.lb).w ∧ l.w1 = (expand l.lb).w1

/-- R112, R110, R72, R73: COMPRESS.S executes in every state on every 96-byte record; its response is the state image of CF, and
the context is untouched. -/
def Obligations.CompressSReturnsCf : Prop :=
  ∀ (s : State) (pay : List Byte), pay.length = 96 →
    exec (.compressS pay) s = .next { s with
      comp := none,
      rsp := s.rsp ++ [rspPacket 0x00#8 0x10#8 (stateEnc (cf (stateDec (pay.take 32)) (blockOf (pay.drop 32))))] }

/-- R113, R110, R72, R73: COMPRESS.U executes in every state on every 96-byte record; its response is the state image of CF, and
the context is untouched. -/
def Obligations.CompressUReturnsCf : Prop :=
  ∀ (s : State) (pay : List Byte), pay.length = 96 →
    exec (.compressU pay) s = .next { s with
      comp := none,
      rsp := s.rsp ++ [rspPacket 0x00#8 0x11#8 (stateEnc (cf (stateDec (pay.take 32)) (blockOf (pay.drop 32))))] }

/-- R115, R110, R72, R74: COMPRESS.V executes in every state on 1 to NLANES records, for every NLANES; its response is the state
images of the lanes' CF, lane 0 first, and the context is untouched.
The first clause is for every NLANES; the second, that exec accepts 1 to 8 lanes, rests on this hardware's NLANES = 8, the
model's choice of the parameter (log entry 2). -/
def Obligations.CompressVReturnsEachLanesCf : Prop :=
  (∀ (c : Config) (s : State) (n : Byte) (pay : List Byte),
    1 ≤ n.toNat → n.toNat ≤ c.nlanes → pay.length = 96 * n.toNat →
    execCompressVWith c n pay s = .next { s with
      comp := none,
      rsp := s.rsp ++ [rspPacket 0x00#8 0x12#8 ((List.range n.toNat).flatMap fun l =>
        stateEnc (cf (stateDec ((pay.drop (96 * l)).take 32)) (blockOf ((pay.drop (96 * l + 32)).take 64))))] }) ∧
  (∀ (s : State) (n : Byte) (pay : List Byte), 1 ≤ n.toNat → n.toNat ≤ 8 → pay.length = 96 * n.toNat →
    ∃ t, exec (.compressV n pay) s = .next t ∧ execCompressVWith Config.hw n pay s = .next t)

/-- R111: for every state image and block, the response payloads of COMPRESS.S, of COMPRESS.U and the l-th 32 bytes of the
response to a COMPRESS.V whose l-th record they are, for every lane and every lane count, are the same 32 bytes,
StateEnc(CF(StateDec(s), b)).
NLANES is this hardware's 8, the model's choice of the parameter (log entry 2). -/
def Obligations.BackendsAnswerTheSameBytes : Prop :=
  ∀ (s : State) (image block : List Byte) (n : Byte) (pay : List Byte) (l : Nat),
    image.length = 32 → block.length = 64 →
    1 ≤ n.toNat → n.toNat ≤ 8 → pay.length = 96 * n.toNat → l < n.toNat →
    (pay.drop (96 * l)).take 96 = image ++ block →
      ∃ ts tu tv rs ru rv,
        exec (.compressS (image ++ block)) s = .next ts ∧ ts.rsp = s.rsp ++ [rs] ∧
        exec (.compressU (image ++ block)) s = .next tu ∧ tu.rsp = s.rsp ++ [ru] ∧
        exec (.compressV n pay) s = .next tv ∧ tv.rsp = s.rsp ++ [rv] ∧
        rspPayload rs = stateEnc (cf (stateDec image) (blockOf block)) ∧
        rspPayload ru = stateEnc (cf (stateDec image) (blockOf block)) ∧
        ((rspPayload rv).drop (32 * l)).take 32 = stateEnc (cf (stateDec image) (blockOf block))

/-- R116: a lane's 32 response bytes depend on that lane's record alone, not on the lane count, the lane index or any other
lane's record.
NLANES is this hardware's 8, the model's choice of the parameter (log entry 2). -/
def Obligations.LaneOutputDependsOnItsOwnRecord : Prop :=
  ∀ (s : State) (n n' : Byte) (pay pay' : List Byte) (l l' : Nat) (t t' : State) (r r' : List Byte),
    pay.length = 96 * n.toNat → pay'.length = 96 * n'.toNat → l < n.toNat → l' < n'.toNat →
    n.toNat ≤ 8 → n'.toNat ≤ 8 →
    (pay.drop (96 * l)).take 96 = (pay'.drop (96 * l')).take 96 →
    exec (.compressV n pay) s = .next t → t.rsp = s.rsp ++ [r] →
    exec (.compressV n' pay') s = .next t' → t'.rsp = s.rsp ++ [r'] →
      ((rspPayload r).drop (32 * l)).take 32 = ((rspPayload r').drop (32 * l')).take 32

/-- R118: the response payload of a COMPRESS.V with the records r_0, ..., r_{N-1} is the concatenation, in order, of the response
payloads of the N commands COMPRESS.S r_0, ..., COMPRESS.S r_{N-1}.
NLANES is this hardware's 8, the model's choice of the parameter (log entry 2). -/
def Obligations.VectorBatchEqualsSequentialCalls : Prop :=
  ∀ (s : State) (n : Byte) (recs : List (List Byte)),
    recs.length = n.toNat → 1 ≤ n.toNat → n.toNat ≤ 8 → (∀ r ∈ recs, r.length = 96) →
      ∃ tv rv ts, exec (.compressV n recs.flatten) s = .next tv ∧ tv.rsp = s.rsp ++ [rv] ∧
        execAll (recs.map .compressS) s = .next ts ∧ ts.rsp.length = s.rsp.length + n.toNat ∧
        rspPayload rv = (ts.rsp.drop s.rsp.length).flatMap rspPayload

/-- R110, R155: no COMPRESS command, executed or rejected, reads or writes the context: in every state, for every payload, V, NBITS,
BUF, IDX, ST, BKSEL and the command port stay, and the response is the same whatever they hold. -/
def Obligations.CompressCommandsIgnoreTheContext : Prop :=
  ∀ (i : Instr) (s s' : State) (pay : List Byte) (n : Byte),
    (i = .compressS pay ∨ i = .compressU pay ∨ i = .compressV n pay) → s.rsp = s'.rsp →
      ∃ t t', exec i s = .next t ∧ exec i s' = .next t' ∧ t.rsp = t'.rsp ∧
        t.context = s.context ∧ t.cmd = s.cmd ∧ t'.context = s'.context ∧ t'.cmd = s'.cmd

/-! ### The Engine -/

/-- R126: INIT executes in every state with every backend: V is IV, NBITS and IDX are 0, ST is ACTIVE, BKSEL is the backend
selected, the response is OK with RLEN = 0; the ports' other contents stay.
R126 does not write BUF: `buf := []`, no byte of BUF with a value, is the model's choice to hold BUF[IDX..63] unspecified (log
entry 4), and `comp := none` is its way to hold no transient state (log entry 5). The IV's value is log entry 1's. -/
def Obligations.InitCreatesTheContext : Prop :=
  ∀ (c : Config) (s : State) (bk : Backend),
    execInitWith c bk s = .next { s with
      v := c.iv, nbits := 0#64, buf := [], idx := 0, st := .active, bksel := bk, comp := none,
      rsp := s.rsp ++ [rspPacket 0x00#8 0x01#8 []] } ∧
    exec (.init bk) s = execInitWith Config.hw bk s

/-- R126, R176: INIT discards a hash in progress without a trace: from any two states with the same ports it leads to the same
state.
That the two states agree in BUF too, which R126 does not write, rests on the model's choice to drop the bytes that become
don't-care (log entry 4). -/
def Obligations.InitErasesTheOldContext : Prop :=
  ∀ (s s' : State) (bk : Backend), s.cmd = s'.cmd → s.rsp = s'.rsp →
    ∃ t, exec (.init bk) s = .next t ∧ exec (.init bk) s' = .next t ∧ t.Inv

/-- R127, R129: ABSORB in ACTIVE executes on every payload: NBITS grows by 8·LEN, the complete blocks of the pending bytes and
the payload are chained through V by CF, and the remainder, and only it, is pending in BUF[0..IDX−1]; ST, BKSEL and the command
port stay. -/
def Obligations.AbsorbFeedsTheStream : Prop :=
  ∀ (s : State) (pay p : List Byte), s.st = .active → s.pending = some p →
    ∃ t, exec (.absorb pay) s = .next t ∧
      t.v = chainBlocks ((p ++ pay).length / 64) s.v (p ++ pay) ∧
      t.nbits = s.nbits + BitVec.ofNat 64 (8 * pay.length) ∧
      t.idx.val = (p ++ pay).length % 64 ∧
      t.pending = some ((p ++ pay).drop (64 * ((p ++ pay).length / 64))) ∧
      (∀ a, t.buf.read a = ((p ++ pay).drop (64 * ((p ++ pay).length / 64)))[a]?) ∧
      t.st = s.st ∧ t.bksel = s.bksel ∧ t.comp = none ∧ t.cmd = s.cmd ∧
      t.rsp = s.rsp ++ [rspPacket 0x00#8 0x02#8 []]

/-- R127's corner cases: LEN = 0 changes nothing; where no block becomes complete V stays and the only bytes of BUF that change are
the LEN bytes stored at IDX; a block completed exactly leaves IDX = 0; one ABSORB of at most 65535 bytes chains (IDX + LEN) div 64
blocks through V, which are at most 1024. -/
def Obligations.AbsorbCornerCases : Prop :=
  (∀ s : State, s.Inv → s.st = .active →
    exec (.absorb []) s = .next { s with rsp := s.rsp ++ [rspPacket 0x00#8 0x02#8 []] }) ∧
  (∀ (s : State) (pay : List Byte), s.Inv → s.st = .active → s.idx.val + pay.length < 64 →
    ∃ t, exec (.absorb pay) s = .next t ∧ t.v = s.v ∧ t.idx.val = s.idx.val + pay.length ∧
      (∀ k < pay.length, t.buf.read (s.idx.val + k) = pay[k]?) ∧
      (∀ a, ¬ (s.idx.val ≤ a ∧ a < s.idx.val + pay.length) → t.buf.read a = s.buf.read a)) ∧
  (∀ (s : State) (pay : List Byte), s.Inv → s.st = .active → s.idx.val + pay.length = 64 →
    ∃ t, exec (.absorb pay) s = .next t ∧ t.idx.val = 0 ∧ ∀ p, s.pending = some p → t.v = cf s.v (blockOf (p ++ pay))) ∧
  (∀ (s : State) (pay : List Byte), s.Inv → s.st = .active → pay.length ≤ 65535 →
    ∃ q ≤ 1024, q = (s.idx.val + pay.length) / 64 ∧
      ∃ p t, s.pending = some p ∧ exec (.absorb pay) s = .next t ∧ t.v = chainBlocks q s.v (p ++ pay))

/-- R137: the counter is exact while the message has fewer than 2^64 bits, and beyond that it is the bit count modulo 2^64, without
a fault. -/
def Obligations.BitCounterWrapsSilently : Prop :=
  ∀ (s : State) (pay : List Byte), s.Inv → s.st = .active →
    ∃ t, exec (.absorb pay) s = .next t ∧ t.nbits.toNat = (s.nbits.toNat + 8 * pay.length) % 2 ^ 64 ∧
      (s.nbits.toNat + 8 * pay.length < 2 ^ 64 → t.nbits.toNat = s.nbits.toNat + 8 * pay.length)

/-- R128: the source's step-by-step ABSORB and Feed agree on V and on the pending bytes. -/
def Obligations.StepwiseAbsorbAgreesWithFeed : Prop :=
  ∀ (s : State) (pay p : List Byte), s.st = .active → s.pending = some p →
    ∃ t, exec (.absorb pay) s = .next t ∧
      t.v = (absorbStepwise pay { v := s.v, held := p }).v ∧
      t.pending = some (absorbStepwise pay { v := s.v, held := p }).held ∧
      t.idx.val = (absorbStepwise pay { v := s.v, held := p }).held.length

/-- R130: the whole context after any sequence of ABSORBs depends only on the concatenation of their payloads; in particular
ABSORB A, ABSORB B leaves the context ABSORB A‖B leaves. -/
def Obligations.AbsorbsOfOneStreamLeaveOneContext : Prop :=
  (∀ (s : State) (ps qs : List (List Byte)), s.Inv → s.st = .active → ps.flatten = qs.flatten →
    ∃ t u, execAll (ps.map .absorb) s = .next t ∧ execAll (qs.map .absorb) s = .next u ∧ t.context = u.context) ∧
  (∀ (s : State) (a b : List Byte), s.Inv → s.st = .active →
    ∃ t u, execAll [.absorb a, .absorb b] s = .next t ∧ exec (.absorb (a ++ b)) s = .next u ∧ t.context = u.context)

/-- R131: Pad(n) is 0x80, k zero bytes and the 8-byte bit length, 9 to 72 bytes, and makes the padded total a multiple of 64 with the
length field in the last 8 bytes. -/
def Obligations.PaddingCompletesTheLastBlock : Prop :=
  ∀ n : Nat,
    (n + (pad n).length) % 64 = 0 ∧ 9 ≤ (pad n).length ∧ (pad n).length ≤ 72 ∧
    (n % 64 ≤ 55 → pad n = 0x80#8 :: (List.replicate (55 - n % 64) 0#8 ++ be64enc (BitVec.ofNat 64 (8 * n))) ∧
      (pad n).length = 64 - n % 64) ∧
    (56 ≤ n % 64 → pad n = 0x80#8 :: (List.replicate (119 - n % 64) 0#8 ++ be64enc (BitVec.ofNat 64 (8 * n))) ∧
      (pad n).length = 128 - n % 64) ∧
    (pad n).drop ((pad n).length - 8) = be64enc (BitVec.ofNat 64 (8 * n))

/-- R132, R133, R131: FINAL in ACTIVE executes: the padding for IDX and for NBITS as found on entry is counted and fed, one block is
compressed for IDX ≤ 55 and two otherwise, IDX becomes 0, ST TERMINAL, and the response is the digest of the new V; BKSEL and the
command port stay.
What V, NBITS and IDX hold afterwards is decision D26, which a model may leave open (log entry 13). -/
def Obligations.FinalEmitsTheDigest : Prop :=
  ∀ (s : State) (p : List Byte), s.st = .active → s.pending = some p →
    (p ++ padBytes s.idx.val s.nbits).length = 64 * (if s.idx.val ≤ 55 then 1 else 2) ∧
    ∃ t, exec .final s = .next t ∧
      t.v = chainBlocks (if s.idx.val ≤ 55 then 1 else 2) s.v (p ++ padBytes s.idx.val s.nbits) ∧
      t.nbits = s.nbits + BitVec.ofNat 64 (8 * (padBytes s.idx.val s.nbits).length) ∧
      t.idx = 0 ∧ (∀ a, t.buf.read a = none) ∧ t.st = .terminal ∧ t.bksel = s.bksel ∧ t.comp = none ∧ t.cmd = s.cmd ∧
      t.rsp = s.rsp ++ [rspPacket 0x00#8 0x03#8 (stateEnc t.v)]

/-- R151, R155, R127, R132: ABSORB and FINAL in TERMINAL are rejected with InvalidState: no architectural state is written and no
digest is returned. -/
def Obligations.TerminalRejectsAbsorbAndFinal : Prop :=
  ∀ s : State, s.st = .terminal →
    (∀ pay : List Byte, exec (.absorb pay) s = .next { s with
      comp := none, rsp := s.rsp ++ [rspPacket 0x01#8 0x02#8 []] }) ∧
    exec .final s = .next { s with comp := none, rsp := s.rsp ++ [rspPacket 0x01#8 0x03#8 []] }

/-- R125, R25: the lifecycle table: ST after every command and the STATUS of its response, in every state the invariant allows;
INIT overwrites the whole context, FINAL returns the digest, COMPRESS does not touch the context; a reserved opcode or a failed
operand check leaves ST and answers IllegalCommand.
NLANES is this hardware's 8, the model's choice of the parameter (log entry 2).
That INIT overwrites BUF too, by dropping its bytes, is the model's choice (log entry 4). -/
def Obligations.LifecycleFollowsTheTable : Prop :=
  (∀ (i : Instr) (s : State), i.wf Config.hw = true → s.Inv →
    ∃ t pl, exec i s = .next t ∧ t.st = (lifecycle i s.st).1 ∧
      t.rsp = s.rsp ++ [rspPacket (lifecycle i s.st).2 i.opcode pl] ∧
      (∀ bk, i = .init bk → ∀ s' : State, ∃ t', exec i s' = .next t' ∧ t'.context = t.context) ∧
      (i = .final → s.st = .active → pl = stateEnc t.v) ∧
      ((i.opcode = 0x10#8 ∨ i.opcode = 0x11#8 ∨ i.opcode = 0x12#8) → t.context = s.context)) ∧
  (∀ (s : State) (opc arg : Byte) (len : BitVec 16) (pay rest : List Byte), pay.length = len.toNat →
    IllegalHeader Config.hw opc arg len.toNat → s.cmd = packet opc arg len pay ++ rest →
    ∃ t, step s = .next t ∧ t.st = s.st ∧ t.rsp = s.rsp ++ [rspPacket 0x02#8 opc []])

/-- R135, R71: INIT, ABSORBs of a message cut in any way, FINAL, from any state and with any backend, answer the digest of the
closed form.
The IV in both is log entry 1's. -/
def Obligations.HashOfAnyCutIsTheClosedForm : Prop :=
  ∀ (s : State) (bk : Backend) (ps : List (List Byte)),
    ∃ t, execAll (.init bk :: ps.map .absorb ++ [.final]) s = .next t ∧
      t.rsp.getLast? = some (rspPacket 0x00#8 0x03#8 (hashOf ps.flatten)) ∧ t.st = .terminal

/-- R71: the expansion of HASH, HASH.U and HASH.V consists of well-formed commands, whatever the message's length, and answers the
message's digest.
The IV in both is log entry 1's. -/
def Obligations.HashExpansionIsLegalAndHashes : Prop :=
  ∀ (s : State) (bk : Backend) (m : List Byte),
    (∀ i ∈ hashCommands bk m, i.wf Config.hw = true) ∧
    ∃ t, execAll (hashCommands bk m) s = .next t ∧
      t.rsp.getLast? = some (rspPacket 0x00#8 0x03#8 (hashOf m))

/-- R70, R71: a line of text never stands for a command of a wrong form: every command it assembles to is well-formed, or is a
COMPRESS.V of whole records whose only fault is its number of lanes.
NLANES is this hardware's 8, the model's choice of the parameter (log entry 2). -/
def Obligations.AssembledCommandsAreWellFormed : Prop :=
  ∀ (line : Text) (is : List Instr), assemble line = some is → ∀ i ∈ is,
    i.wf Config.hw = true ∨
    ∃ n pay, i = .compressV n pay ∧ pay.length = 96 * n.toNat ∧ (n.toNat = 0 ∨ 8 < n.toNat)

/-- R70, R72 to R74, R112, R113, R115: the lines of text of COMPRESS.S, COMPRESS.U and COMPRESS.V, with every state literal and every
64-byte block in every written form, assemble to one command, which executes in every state and answers the state image of CF of
exactly those literals, in order. NLANES is this hardware's 8, the model's choice of the parameter (log entry 2). That a block
may be written by PADBYTES with its number in decimal, and where blanks may stand, is the model's reading (log entry 14). -/
def Obligations.AssembledCompressAnswersCfOfItsLiterals : Prop :=
  (∀ (s : State) (v : Chain) (block : Literal), block.wf = true → block.value.length = 64 →
    (∃ i t, assemble (Line.compressS v block).text = some [i] ∧
      exec i s = .next t ∧ t.rsp = s.rsp ++ [rspPacket 0x00#8 0x10#8 (stateEnc (cf v (blockOf block.value)))]) ∧
    (∃ i t, assemble (Line.compressU v block).text = some [i] ∧
      exec i s = .next t ∧ t.rsp = s.rsp ++ [rspPacket 0x00#8 0x11#8 (stateEnc (cf v (blockOf block.value)))])) ∧
  (∀ (s : State) (ps : List (Chain × Literal)), 1 ≤ ps.length → ps.length ≤ 8 →
    (∀ p ∈ ps, p.2.wf = true ∧ p.2.value.length = 64) →
    ∃ i t, assemble (Line.compressV ps).text = some [i] ∧ exec i s = .next t ∧
      t.rsp = s.rsp ++ [rspPacket 0x00#8 0x12#8 (ps.flatMap fun p => stateEnc (cf p.1 (blockOf p.2.value)))])

/-- R138: from the digest of a message and its length alone, chaining CF over a suffix and its padding gives the hash of the message,
its padding and the suffix, for every IV. -/
def Obligations.LengthExtensionHolds : Prop :=
  ∀ (c : Config) (m x : List Byte),
    let f := m.length + (pad m.length).length
    let tail := x ++ pad (f + x.length)
    f % 64 = 0 ∧ tail.length % 64 = 0 ∧
    stateEnc (chainBlocks (tail.length / 64) (stateDec (hashWith c m)) tail) = hashWith c (m ++ pad m.length ++ x)

/-! ### The whole machine -/

/-- R26, R111, R122: no response depends on BKSEL: changing it in any state changes nothing of what any command does but BKSEL
itself. -/
def Obligations.NoResponseDependsOnTheBackend : Prop :=
  ∀ (i : Instr) (s t : State) (bk : Backend), exec i s = .next t →
    ∃ bk', exec i { s with bksel := bk } = .next { t with bksel := bk' }

/-- R35, R132 (decisions D9, D26): what V, NBITS, BUF, IDX and BKSEL hold in TERMINAL is never visible: from two TERMINAL states with
the same ports, every sequence of commands gets the same responses. So no response rests on the values the model chose for
reset (log entry 3). -/
def Obligations.TerminalContextIsInvisible : Prop :=
  ∀ (is : List Instr) (s s' t : State), s.st = .terminal → s'.st = .terminal → s.cmd = s'.cmd → s.rsp = s'.rsp →
    execAll is s = .next t → ∃ t', execAll is s' = .next t' ∧ t'.rsp = t.rsp ∧ t'.cmd = t.cmd

/-- R20's column "written by", R21 to R26, R55: over all commands, V and NBITS are written only by INIT, ABSORB and FINAL, IDX by
them, BKSEL only by INIT, ST only by INIT and FINAL, and a byte of BUF is stored only by ABSORB and FINAL: what INIT may do to BUF
is to drop a byte to "no value", never to store one, which is how the model holds BUF[IDX..63] unspecified (log entry 4); every
command adds exactly one response, takes nothing more from the command port, and leaves no transient state. -/
def Obligations.OnlyTheListedCommandsWriteEachRegister : Prop :=
  ∀ (i : Instr) (s t : State), exec i s = .next t →
    ((∀ bk, i ≠ .init bk) → t.bksel = s.bksel) ∧
    ((∀ bk, i ≠ .init bk) → i ≠ .final → t.st = s.st) ∧
    ((∀ bk, i ≠ .init bk) → i ≠ .final → (∀ pay, i ≠ .absorb pay) →
      t.v = s.v ∧ t.nbits = s.nbits ∧ t.idx = s.idx ∧ t.buf = s.buf) ∧
    (∀ bk, i = .init bk → ∀ a b, t.buf.read a = some b → s.buf.read a = some b) ∧
    t.cmd = s.cmd ∧ t.comp = none ∧ ∃ r, t.rsp = s.rsp ++ [r]

/-- R35, R170: reset leaves ST = TERMINAL, BKSEL = 0 (S) and no transient state; the host's reset does so from every state, keeps the
responses already given and adds none; and from there ABSORB and FINAL are rejected with InvalidState.
What reset does to the two ports, and V, NBITS and IDX at reset, are the model's choices (log entries 7 and 3). -/
def Obligations.ResetLeavesNoContext : Prop :=
  State.reset.st = .terminal ∧ State.reset.bksel = .scalar ∧ State.reset.comp = none ∧
  ∀ s : State, s.resetNow.context = State.reset.context ∧ s.resetNow.rsp = s.rsp ∧ s.resetNow.comp = none ∧
    ∀ pay : List Byte,
      (∃ t, exec (.absorb pay) s.resetNow = .next t ∧ t.rsp = s.rsp ++ [rspPacket 0x01#8 0x02#8 []]) ∧
      (∃ t, exec .final s.resetNow = .next t ∧ t.rsp = s.rsp ++ [rspPacket 0x01#8 0x03#8 []])

/-- The invariant (R23, R24, R33) holds right after reset.
R35 leaves IDX and BUF unspecified: that exactly BUF[0..IDX−1] hold a value rests on the model's IDX = 0 at reset (log entry 3)
and on its empty BUF there (log entry 4). -/
def Obligations.ResetMeetsTheInvariant : Prop := State.reset.Inv

/-- R23, R24, R33: every step keeps the invariant: BUF canonical and holding exactly BUF[0..IDX−1], IDX = (NBITS div 8) mod 64 while
ACTIVE, no transient state between commands. -/
def Obligations.StepKeepsTheInvariant : Prop :=
  ∀ s t : State, s.Inv → step s = .next t → t.Inv

/-- R23 (log entry 4): the only way a command can stop is ABSORB or FINAL in ACTIVE with a byte below IDX that holds no value, which
the invariant rules out; in every other state every command answers a next state. -/
def Obligations.OnlyAnUnspecifiedPendingByteStopsACommand : Prop :=
  ∀ (i : Instr) (s : State),
    (((∃ pay, i = .absorb pay) ∨ i = .final) ∧ s.st = .active ∧ s.pending = none ∧ exec i s = .fault .pendingByteUnspecified) ∨
    (¬ (((∃ pay, i = .absorb pay) ∨ i = .final) ∧ s.st = .active ∧ s.pending = none) ∧ ∃ t, exec i s = .next t)

/-- R162, R180: hashing is total and the core cannot hang or stop: from every state the invariant allows, a step answers a next
state, whatever bytes are on the command port.
R180 speaks of a well-formed stream: that a step also answers, the same state, where the port holds no whole packet, is the
model's reading of R69 (log entry 10). -/
def Obligations.CoreNeverStops : Prop :=
  ∀ s : State, s.Inv → (∃ p, s.pending = some p) ∧ ∃ t, step s = .next t

/-- R5, R6, R155, R170, R180: in every state that the host's bytes, its resets and the core's steps can reach, the invariant holds and
the next step answers a next state, with at most one more response.
The waiting step, `t = s`, is the model's reading of R69 (log entry 10), the state reset starts from holds the model's values
(log entries 3 and 4), and a reset drops the bytes on the command port (log entry 7). -/
def Obligations.ReachableStatesAreSound : Prop :=
  ∀ s : State, Reachable s → s.Inv ∧
    ∃ t, step s = .next t ∧ (t = s ∨ ∃ r, t.rsp = s.rsp ++ [r])

/-- R70, R71: every line R70 and R71 list is accepted, with every operand in every written form: INIT with and without a letter,
ABSORB, FINAL, the three COMPRESS lines, HASH, HASH.U and HASH.V, the byte strings as hexadecimal, as text or by PADBYTES. It stands
for exactly the commands it is written for, also with a comment behind it. A line of blanks and a comment stands for none. That PADBYTES takes its number in decimal, and where
blanks may stand, is the model's reading (log entry 14). -/
def Obligations.LinesOfTextStandForTheirCommands : Prop :=
  (∀ (l : Line) (comment : Text), l.wf = true →
    assemble l.text = some l.commands ∧ assemble (l.text ++ [' ', ';'] ++ comment) = some l.commands) ∧
  (∀ (n : Nat) (comment : Text),
    assemble (List.replicate n ' ') = some [] ∧ assemble (List.replicate n ' ' ++ [';'] ++ comment) = some [])

/-- R35, R132 (decisions D9, D26), U9, as one step: two states that no host can tell apart, that is equal ones or two TERMINAL ones
with the same ports whatever their contexts hold, stay so: if a step from one answers a next state, the step from the other
does, and the two are again so related. A waiting step is a step too (log entry 10).
That INIT leads from both to equal states, BUF included, which R126 does not write, rests on the model's choice to drop the bytes
R23 makes don't-care (log entry 4). -/
def Obligations.StepKeepsStatesAlikeToTheHost : Prop :=
  ∀ s s' t : State, SameToHost s s' → step s = .next t → ∃ t', step s' = .next t' ∧ SameToHost t t'
end

