-- ==== Sys2Proof/Laws/Bytes.lean ====
section
/-!
SUPPORT. The laws of the byte-order helpers and of the header's fields.
-/

namespace Sys2Proof.Machine

@[simp] theorem be32enc_length (w : Word) : (be32enc w).length = 4 := rfl

@[simp] theorem be64enc_length (n : BitVec 64) : (be64enc n).length = 8 := rfl

@[simp] theorem chainWords_length (v : Chain) : (chainWords v).length = 8 := rfl

@[simp] theorem stateEnc_length (v : Chain) : (stateEnc v).length = 32 := rfl

/-- A word is the big-endian reading of its own big-endian bytes. -/
@[simp] theorem be32dec_be32enc (w : Word) :
    be32dec (w.extractLsb' 24 8) (w.extractLsb' 16 8) (w.extractLsb' 8 8) (w.extractLsb' 0 8) = w := by
  unfold be32dec
  ext i hi
  simp only [BitVec.getElem_append, BitVec.getElem_extractLsb']
  split
  · simp [BitVec.getLsbD_eq_getElem, hi]
  · split
    · rw [show 8 + (i - 8) = i from by omega]; simp [BitVec.getLsbD_eq_getElem, hi]
    · split
      · rw [show 16 + (i - 8 - 8) = i from by omega]; simp [BitVec.getLsbD_eq_getElem, hi]
      · rw [show 24 + (i - 8 - 8 - 8) = i from by omega]; simp [BitVec.getLsbD_eq_getElem, hi]

end Sys2Proof.Machine

namespace Sys2Proof

open Machine

@[simp] theorem hdrOpc_append (opc arg : Byte) (len : BitVec 16) : hdrOpc (opc ++ arg ++ len) = opc := by
  unfold hdrOpc
  ext i hi
  simp only [BitVec.getElem_extractLsb']
  rw [BitVec.getLsbD_append, BitVec.getLsbD_append, if_neg (by omega), if_neg (by omega),
    show 24 + i - 16 - 8 = i from by omega]
  simp [BitVec.getLsbD_eq_getElem, hi]

@[simp] theorem hdrArg_append (opc arg : Byte) (len : BitVec 16) : hdrArg (opc ++ arg ++ len) = arg := by
  unfold hdrArg
  ext i hi
  simp only [BitVec.getElem_extractLsb']
  rw [BitVec.getLsbD_append, BitVec.getLsbD_append, if_neg (by omega), if_pos (by omega),
    show 16 + i - 16 = i from by omega]
  simp [BitVec.getLsbD_eq_getElem, hi]

@[simp] theorem hdrLen_append (opc arg : Byte) (len : BitVec 16) : hdrLen (opc ++ arg ++ len) = len.toNat := by
  unfold hdrLen
  congr 1
  ext i hi
  simp only [BitVec.getElem_extractLsb']
  rw [BitVec.getLsbD_append, if_pos (by omega), Nat.zero_add]
  simp [BitVec.getLsbD_eq_getElem, hi]

/-- The decoder on a packet's bytes: the header word, then `decodeAfter`. -/
theorem decodeWith_be32enc (c : Config) (hdr : Word) (bytes : List Byte) :
    decodeWith c (be32enc hdr ++ bytes) = decodeAfter c hdr bytes := by
  simp [be32enc, decodeWith]

/-- A whole packet is decoded from its header's fields and its payload alone, and the bytes after it are left. -/
theorem decodeWith_packet (c : Config) (opc arg : Byte) (len : BitVec 16) (pay rest : List Byte)
    (h : pay.length = len.toNat) :
    decodeWith c (be32enc (opc ++ arg ++ len) ++ (pay ++ rest)) =
      match decodePacket c opc arg pay with
      | .ok i => .command i rest
      | .error why => .illegal opc why rest := by
  rw [decodeWith_be32enc, decodeAfter]
  simp only [hdrLen_append, hdrOpc_append, hdrArg_append, ← h, List.take_left, List.drop_left]
  refine (if_neg (by simp)).trans ?_
  cases decodePacket c opc arg pay <;> rfl

end Sys2Proof
end

