-- ==== Sys2Proof/Laws/Assembler.lean ====
section
/-!
SUPPORT. What the scanner makes of each written form: one lemma per kind of piece, each for every text that follows it.
-/

namespace Sys2Proof.Machine

theorem scan_cons (m : Scanning) (c : Char) (cs : Text) :
    scan m (c :: cs) =
      match scanChar m c with
      | none => none
      | some (ts, m') => (scan m' cs).map fun rest => ts ++ rest := rfl

/-- A character that begins a piece or ends one from between pieces. -/
theorem scan_between {c : Char} {ts : List Token} {m' : Scanning} (h : beginPiece c = some (ts, m')) (cs : Text) :
    scan .between (c :: cs) = (scan m' cs).map fun rest => ts ++ rest := by
  rw [scan_cons, show scanChar .between c = some (ts, m') from h]

/-- A character inside a piece that ends none. -/
theorem scan_inside {m m' : Scanning} {c : Char} (h : scanChar m c = some ([], m')) (cs : Text) :
    scan m (c :: cs) = scan m' cs := by
  rw [scan_cons, h]; simp

/-- A character that ends a literal. -/
theorem scan_close {m : Scanning} {c : Char} {t : Token} (h : scanChar m c = some ([t], .between)) (cs : Text) :
    scan m (c :: cs) = (scan .between cs).map fun rest => t :: rest := by
  rw [scan_cons, h]; rfl

/-- A comment runs to the end of the line. -/
theorem scan_comment (cs : Text) : scan .comment cs = some [] := by
  induction cs with
  | nil => rfl
  | cons c cs ih => rw [scan_inside (m' := .comment) rfl, ih]

/-- A name ends where no letter or dot follows. -/
theorem scan_name_end (t u : Text) (h : ∀ c, u.head? = some c → nameChar c = false) :
    scan (.name t) u = (scan .between u).map fun rest => .name t :: rest := by
  cases u with
  | nil => rfl
  | cons c cs =>
    have hc : scanChar (.name t) c = (beginPiece c).map fun r => (.name t :: r.1, r.2) := by simp [scanChar, h c rfl]
    rw [scan_cons, scan_cons, hc]
    cases hb : beginPiece c with
    | none => simp [scanChar, hb]
    | some r =>
      simp only [Option.map_some, scanChar, hb, Option.map_map]
      rfl

/-- A number ends where no digit follows. -/
theorem scan_number_end (n : Nat) (u : Text) (h : ∀ c, u.head? = some c → ¬ (48 ≤ c.toNat ∧ c.toNat ≤ 57)) :
    scan (.number n) u = (scan .between u).map fun rest => .number n :: rest := by
  cases u with
  | nil => rfl
  | cons c cs =>
    have hc : scanChar (.number n) c = (beginPiece c).map fun r => (.number n :: r.1, r.2) := by
      rw [scanChar, if_neg (h c rfl)]
    rw [scan_cons, scan_cons, hc]
    cases hb : beginPiece c with
    | none => simp [scanChar, hb]
    | some r =>
      simp only [Option.map_some, scanChar, hb, Option.map_map]
      rfl

/-- The digits of a number. -/
theorem scan_digits (ds : List (Fin 10)) (n : Nat) (u : Text) :
    scan (.number n) (ds.map (fun d => Char.ofNat (48 + d.val)) ++ u) =
      scan (.number (ds.foldl (fun n d => 10 * n + d.val) n)) u := by
  induction ds generalizing n with
  | nil => rfl
  | cons d ds ih =>
    have hd : scanChar (.number n) (Char.ofNat (48 + d.val)) = some ([], .number (10 * n + d.val)) := by
      have h : ∀ d : Fin 10, (Char.ofNat (48 + d.val)).toNat = 48 + d.val := by decide
      rw [scanChar, h, if_pos (by omega), Nat.add_sub_cancel_left]
    rw [List.map_cons, List.cons_append, scan_inside hd, ih, List.foldl_cons]

/-- The characters of a text literal, and the quote that ends it. -/
theorem scan_ascii (t : Text) (b : List Byte) (u : Text) (h : t.all textChar = true) :
    scan (.text b) (t ++ quote :: u) =
      (scan .between u).map fun rest => .bytes (b ++ t.map fun c => BitVec.ofNat 8 c.toNat) :: rest := by
  induction t generalizing b with
  | nil =>
    rw [List.nil_append, scan_close (t := .bytes b) (by simp [scanChar, scanText])]
    simp
  | cons c t ih =>
    rw [List.all_cons, Bool.and_eq_true] at h
    have hc : scanChar (.text b) c = some ([], .text (b ++ [BitVec.ofNat 8 c.toNat])) := by
      have := h.1
      simp only [textChar, Bool.and_eq_true, decide_eq_true_eq, bne_iff_ne, ne_eq] at this
      rw [scanChar, scanText, if_neg this.2, if_pos ⟨this.1.1, this.1.2⟩]
    rw [List.cons_append, scan_inside hc, ih _ h.2]
    simp

theorem hexDigit_digitChar (d : BitVec 4) : hexDigit (digitChar d) = some d := by
  revert d; decide

theorem digitChar_ne_quote (d : BitVec 4) : digitChar d ≠ quote := by
  revert d; decide

/-- A byte is its two hexadecimal digits. -/
theorem byte_of_digits (x : Byte) : x.extractLsb' 4 4 ++ x.extractLsb' 0 4 = x := by
  ext i hi
  rw [BitVec.getElem_append]
  split <;> simp [BitVec.getElem_extractLsb', BitVec.getLsbD_eq_getElem, *]
  rename_i h
  simp [show 4 + (i - 4) = i from by omega, BitVec.getLsbD_eq_getElem, hi]

/-- The digits of a hexadecimal literal, and the quote that ends it. -/
theorem scan_hexDigits (x b : List Byte) (u : Text) :
    scan (.hex b none)
        (x.flatMap (fun y => [digitChar (y.extractLsb' 4 4), digitChar (y.extractLsb' 0 4)]) ++ quote :: u) =
      (scan .between u).map fun rest => .bytes (b ++ x) :: rest := by
  induction x generalizing b with
  | nil =>
    have hq : hexDigit quote = none := by decide
    rw [List.flatMap_nil, List.nil_append, scan_close (t := .bytes b) (by simp [scanChar, scanHex, hq])]
    simp
  | cons y x ih =>
    rw [List.flatMap_cons, List.append_assoc, List.cons_append, List.cons_append, List.nil_append,
      scan_inside (m' := .hex b (some (y.extractLsb' 4 4))) (by simp [scanChar, scanHex, hexDigit_digitChar]),
      scan_inside (m' := .hex (b ++ [y]) none) (by simp [scanChar, scanHex, hexDigit_digitChar, byte_of_digits]), ih]
    simp

/-- A hexadecimal literal. -/
theorem scan_hexText (b : List Byte) (u : Text) :
    scan .between (hexText b ++ u) = (scan .between u).map fun rest => .bytes b :: rest := by
  have hx : beginPiece 'x' = some ([], .afterX) := by decide
  have hq : scanChar .afterX quote = some ([], .hex [] none) := by decide
  simp only [hexText, List.append_assoc, List.cons_append, List.nil_append]
  rw [scan_inside (m := .between) hx, scan_inside hq, scan_hexDigits, List.nil_append]

/-- The pieces of a literal. -/
def Literal.tokens : Literal → List Token
  | .hex b => [.bytes b]
  | .ascii t => [.bytes (t.map fun c => BitVec.ofNat 8 c.toNat)]
  | .padBytes ds => [.name ['P', 'A', 'D', 'B', 'Y', 'T', 'E', 'S'], .number (decimalValue ds)]

/-- A literal in any written form, where no digit follows. -/
theorem scan_literal (l : Literal) (u : Text) (hl : l.wf = true)
    (h : ∀ c, u.head? = some c → ¬ (48 ≤ c.toNat ∧ c.toNat ≤ 57)) :
    scan .between (l.text ++ u) = (scan .between u).map fun rest => l.tokens ++ rest := by
  cases l with
  | hex b => exact scan_hexText b u
  | ascii t =>
    have hq : beginPiece quote = some ([], .text []) := by decide
    simp only [Literal.text, List.cons_append, List.append_assoc, List.nil_append]
    rw [scan_inside (m := .between) hq, scan_ascii t [] u hl, List.nil_append]
    rfl
  | padBytes ds =>
    cases ds with
    | nil => exact absurd hl (by decide)
    | cons d ds =>
      have hd : beginPiece (Char.ofNat (48 + d.val)) = some ([], .number d.val) :=
        (by decide : ∀ d : Fin 10, beginPiece (Char.ofNat (48 + d.val)) = some ([], .number d.val)) d
      have hs : beginPiece ' ' = some ([], .between) := by decide
      simp only [Literal.text, padBytesText, List.cons_append, List.nil_append, List.map_cons]
      rw [scan_inside (m := .between) (m' := .name ['P']) (by decide), scan_inside (m' := .name ['P', 'A']) (by decide),
        scan_inside (m' := .name ['P', 'A', 'D']) (by decide), scan_inside (m' := .name ['P', 'A', 'D', 'B']) (by decide),
        scan_inside (m' := .name ['P', 'A', 'D', 'B', 'Y']) (by decide),
        scan_inside (m' := .name ['P', 'A', 'D', 'B', 'Y', 'T']) (by decide),
        scan_inside (m' := .name ['P', 'A', 'D', 'B', 'Y', 'T', 'E']) (by decide),
        scan_inside (m' := .name ['P', 'A', 'D', 'B', 'Y', 'T', 'E', 'S']) (by decide),
        scan_name_end _ _ (by intro c hc; simp at hc; subst hc; decide), scan_inside (m := .between) hs,
        scan_inside (m := .between) hd, scan_digits, scan_number_end _ _ h]
      simp [Literal.tokens, decimalValue, Option.map_map, Function.comp_def]

theorem digitChar_scanState (ws : List Word) (ds : List (BitVec 4)) (d : BitVec 4) (h : ds.length < 8) :
    scanChar (.state ws ds) (digitChar d) = some ([], .state ws (ds ++ [d])) := by
  simp [scanChar, scanState, hexDigit_digitChar, h]

theorem wordDigits_length (w : Word) : (wordDigits w).length = 8 := rfl

/-- A word is its eight hexadecimal digits. -/
theorem wordOfDigits_wordDigits (w : Word) : wordOfDigits (wordDigits w) = w := by
  simp only [wordDigits, be32enc, List.flatMap_cons, List.flatMap_nil, List.cons_append, List.nil_append, wordOfDigits,
    List.foldl_cons, List.foldl_nil]
  ext i hi
  interval_cases i <;>
    simp [BitVec.getElem_or, BitVec.getElem_shiftLeft, BitVec.getLsbD_eq_getElem]

/-- The digits of a state literal's word. -/
theorem scan_stateDigits (ws : List Word) (ds es : List (BitVec 4)) (u : Text) (h : ds.length + es.length ≤ 8) :
    scan (.state ws ds) (es.map digitChar ++ u) = scan (.state ws (ds ++ es)) u := by
  induction es generalizing ds with
  | nil => simp
  | cons e es ih =>
    simp only [List.length_cons] at h
    rw [List.map_cons, List.cons_append, scan_inside (digitChar_scanState ws ds e (by omega)),
      ih _ (by simp; omega), List.append_assoc]
    rfl

/-- A word of a state literal, behind a blank. -/
theorem scan_stateWord (ws : List Word) (ds : List (BitVec 4)) (w : Word) (u : Text) :
    scan (.state ws ds) (' ' :: (wordText w ++ u)) = scan (.state (endWord ws ds) (wordDigits w)) u := by
  rw [scan_inside (m' := .state (endWord ws ds) []) (by simp [scanChar, scanState, show hexDigit ' ' = none from by decide]),
    wordText, scan_stateDigits _ _ _ _ (by rw [wordDigits_length]; simp), List.nil_append]

theorem endWord_wordDigits (ws : List Word) (w : Word) : endWord ws (wordDigits w) = ws ++ [w] := by
  rw [endWord, if_neg (by intro h; have := wordDigits_length w; rw [h] at this; cases this), wordOfDigits_wordDigits]

/-- A state literal. -/
theorem scan_stateText (v : Chain) (u : Text) :
    scan .between (stateText v ++ u) = (scan .between u).map fun rest => .state v :: rest := by
  have hb : beginPiece (Char.ofNat 123) = some ([], .state [] []) := by decide
  have he : ∀ w ws, chainOfWords (ws ++ [w]) = some v →
      scanChar (.state ws (wordDigits w)) (Char.ofNat 125) = some ([.state v], .between) := by
    intro w ws h
    simp [scanChar, scanState, show hexDigit (Char.ofNat 125) = none from by decide,
      show (Char.ofNat 125).toNat = 125 from by decide, show (Char.ofNat 125 = ' ') = False from by decide,
      endWord_wordDigits, h]
  simp only [stateText, List.append_assoc, List.cons_append, List.nil_append, List.flatMap_cons, List.flatMap_nil]
  rw [scan_inside (m := .between) hb]
  rw [wordText, scan_stateDigits _ _ _ _ (by rw [wordDigits_length]; simp), List.nil_append]
  rw [scan_stateWord, scan_stateWord, scan_stateWord, scan_stateWord, scan_stateWord, scan_stateWord, scan_stateWord]
  simp only [endWord_wordDigits, List.nil_append, List.cons_append]
  rw [scan_close (he v.v7 [v.v0, v.v1, v.v2, v.v3, v.v4, v.v5, v.v6] rfl)]

/-- Blanks between pieces. -/
theorem scan_blanks (n : Nat) (u : Text) : scan .between (List.replicate n ' ' ++ u) = scan .between u := by
  induction n with
  | zero => rfl
  | succ n ih =>
    rw [List.replicate_succ, List.cons_append,
      scan_inside (m := .between) (show beginPiece ' ' = some ([], .between) from by decide), ih]

/-- A letter or dot begins a name. -/
theorem beginPiece_name (c : Char) (h : nameChar c = true) : beginPiece c = some ([], .name [c]) := by
  have h' := h
  simp only [nameChar, Bool.or_eq_true, Bool.and_eq_true, decide_eq_true_eq, beq_iff_eq] at h
  have hne : c ≠ ' ' ∧ c ≠ ';' ∧ c ≠ ',' ∧ c ≠ '(' ∧ c ≠ ')' ∧ c ≠ quote ∧ c ≠ 'x' ∧ c.toNat ≠ 123 := by
    refine ⟨?_, ?_, ?_, ?_, ?_, ?_, ?_, ?_⟩
    all_goals intro hh
    all_goals first
      | (subst hh; revert h'; decide)
      | (rcases h with h | h
         · omega
         · subst h; revert hh; decide)
  obtain ⟨h1, h2, h3, h4, h5, h6, h7, h8⟩ := hne
  simp [beginPiece, h1, h2, h3, h4, h5, h6, h7, h8, h']

/-- The letters of a name. -/
theorem scan_nameChars (n t u : Text) (h : n.all nameChar = true) : scan (.name t) (n ++ u) = scan (.name (t ++ n)) u := by
  induction n generalizing t with
  | nil => simp
  | cons c n ih =>
    rw [List.all_cons, Bool.and_eq_true] at h
    rw [List.cons_append, scan_inside (m' := .name (t ++ [c])) (by simp [scanChar, h.1]), ih _ h.2]
    simp

/-- A mnemonic or a backend letter, where no letter or dot follows. -/
theorem scan_mnemonic (n u : Text) (hn : n ≠ []) (h : n.all nameChar = true)
    (hu : ∀ c, u.head? = some c → nameChar c = false) :
    scan .between (n ++ u) = (scan .between u).map fun rest => .name n :: rest := by
  cases n with
  | nil => exact absurd rfl hn
  | cons c n =>
    rw [List.all_cons, Bool.and_eq_true] at h
    rw [List.cons_append, scan_inside (m := .between) (beginPiece_name c h.1), scan_nameChars _ _ _ h.2,
      scan_name_end _ _ hu]
    rfl

theorem scan_blank (u : Text) : scan .between (' ' :: u) = scan .between u := scan_blanks 1 u

theorem scan_comma (u : Text) : scan .between (',' :: u) = (scan .between u).map fun rest => Token.comma :: rest :=
  scan_close (m := .between) (show beginPiece ',' = some ([.comma], .between) from by decide) u

theorem scan_leftParen (u : Text) : scan .between ('(' :: u) = (scan .between u).map fun rest => Token.leftParen :: rest :=
  scan_close (m := .between) (show beginPiece '(' = some ([.leftParen], .between) from by decide) u

theorem scan_rightParen (u : Text) : scan .between (')' :: u) = (scan .between u).map fun rest => Token.rightParen :: rest :=
  scan_close (m := .between) (show beginPiece ')' = some ([.rightParen], .between) from by decide) u

/-- A state and a block, where no digit follows. -/
theorem scan_recordText (v : Chain) (b : Literal) (u : Text) (hb : b.wf = true)
    (hu : ∀ c, u.head? = some c → ¬ (48 ≤ c.toNat ∧ c.toNat ≤ 57)) :
    scan .between (recordText v b ++ u) = (scan .between u).map fun rest => .state v :: .comma :: (b.tokens ++ rest) := by
  simp only [recordText, List.append_assoc, List.cons_append, List.nil_append]
  rw [scan_stateText, scan_comma, scan_blank, scan_literal _ _ hb hu]
  simp [Option.map_map, Function.comp_def]

/-- Whatever its written form, a literal is its bytes once PADBYTES is replaced. -/
theorem expandPadBytes_literal (l : Literal) (ts : List Token) :
    expandPadBytes (l.tokens ++ ts) = .bytes l.value :: expandPadBytes ts := by
  cases l <;> simp [Literal.tokens, Literal.value, expandPadBytes]

end Sys2Proof.Machine
end

