-- ==== Sys2Proof/Laws/Backends.lean ====
section
/-!
SUPPORT. What a compression does to its lanes and to the state: the one lemma per shared operation that later proofs cite.
-/

namespace Sys2Proof.Machine

/-- One round on every lane, and the counter one higher. -/
theorem Compression.advance_eq (body : Nat → Regs → Word → Word → Regs) (c : Compression) (h : c.j.val < 64) :
    c.advance body = { lanes := c.lanes.map (Lane.advance body ⟨c.j.val, h⟩), j := ⟨c.j.val + 1, by omega⟩ } :=
  dif_pos h

/-- The registers of a lane after the `n` rounds `j, j+1, ..., j+n-1`. -/
def Lane.after (body : Nat → Regs → Word → Word → Regs) : Nat → Nat → Lane → Lane
  | _, 0, l => l
  | j, n + 1, l =>
    Lane.after body (j + 1) n { l with regs := body j l.regs (l.w.toList.getD j 0) (l.w1.toList.getD j 0) }

/-- `n` lockstep rounds are `n` rounds on each lane by itself (R116, R117). -/
theorem Compression.repeatRounds_eq (body : Nat → Regs → Word → Word → Regs) (n : Nat) (c : Compression)
    (h : c.j.val + n < 65) :
    c.repeatRounds body n = { lanes := c.lanes.map (Lane.after body c.j.val n), j := ⟨c.j.val + n, h⟩ } := by
  induction n generalizing c with
  | zero => simp [Compression.repeatRounds, Lane.after]
  | succ n ih =>
    have hj : c.j.val < 64 := by omega
    rw [Compression.repeatRounds, Compression.advance_eq body c hj, ih _ (by simp only; omega)]
    simp only [List.map_map, Compression.mk.injEq, Fin.mk.injEq]
    refine ⟨List.map_congr_left fun l _ => ?_, by omega⟩
    simp [Lane.after, Lane.advance, List.getD_eq_getElem?_getD, hj, show c.j.val < 68 from by omega]

/-- A compression answers its lanes' output states and leaves the state as it was, with no transient state. -/
theorem State.compress_eq (bk : Backend) (recs : List (Chain × Block)) (s : State) :
    s.compress bk recs = (((Compression.load recs).run bk).outputs, { s with comp := none }) := rfl

end Sys2Proof.Machine
end

