-- ==== Sys2Proof/Laws/Memory.lean ====
section
/-!
SUPPORT. The laws of the pending buffer's memory: a read after a write, a write leaves every other address alone, every
operation keeps the canonical form, and two canonical memories that read alike are equal.
-/

namespace Sys2Proof.Machine

@[simp] theorem Memory.read_nil (a : Nat) : Memory.read [] a = none := rfl

@[simp] theorem Memory.wf_nil : Memory.wf [] := List.Pairwise.nil

theorem Memory.read_cons (b : Nat) (v : Byte) (m : Memory) (a : Nat) :
    Memory.read ((b, v) :: m) a = if a = b then some v else m.read a := rfl

/-- An address below every listed one reads as unspecified. -/
theorem Memory.read_eq_none_of_lt {m : Memory} {a : Nat} (h : ∀ c ∈ m, a < c.1) : m.read a = none := by
  induction m with
  | nil => rfl
  | cons c m ih =>
    have hc := h c List.mem_cons_self
    rw [show c = (c.1, c.2) from rfl, Memory.read_cons, if_neg (by omega)]
    exact ih fun d hd => h d (List.mem_cons_of_mem _ hd)

/-- A read after a write to the same address gives the value written. -/
@[simp] theorem Memory.read_write_same (m : Memory) (a : Nat) (v : Byte) : (m.write a v).read a = some v := by
  induction m with
  | nil => simp [Memory.write, Memory.read_cons]
  | cons c m ih =>
    obtain ⟨b, u⟩ := c
    simp only [Memory.write]
    split
    · simp [Memory.read_cons]
    · split
      · simp [Memory.read_cons]
      · simp [Memory.read_cons, *]

/-- A write leaves every other address alone. -/
theorem Memory.read_write_other (m : Memory) {a x : Nat} (v : Byte) (h : x ≠ a) : (m.write a v).read x = m.read x := by
  induction m with
  | nil => simp [Memory.write, Memory.read_cons, h]
  | cons c m ih =>
    obtain ⟨b, u⟩ := c
    simp only [Memory.write]
    split
    · simp [Memory.read_cons, h]
    · split
      · subst b; simp [Memory.read_cons, h]
      · simp [Memory.read_cons, ih]

/-- Every address a write lists was listed before or is the address written. -/
theorem Memory.mem_write {m : Memory} {a : Nat} {v : Byte} {c : Host.Cell} (h : c ∈ m.write a v) : c = (a, v) ∨ c ∈ m := by
  induction m with
  | nil => simp [Memory.write] at h; exact Or.inl h
  | cons d m ih =>
    obtain ⟨b, u⟩ := d
    simp only [Memory.write] at h
    split at h
    · simpa using h
    · split at h
      · rcases List.mem_cons.1 h with h | h
        · exact Or.inl h
        · exact Or.inr (List.mem_cons_of_mem _ h)
      · rcases List.mem_cons.1 h with h | h
        · exact Or.inr (h ▸ List.mem_cons_self)
        · exact (ih h).imp_right (List.mem_cons_of_mem _)

/-- A write keeps the canonical form. -/
theorem Memory.wf_write {m : Memory} (hm : m.wf) (a : Nat) (v : Byte) : (m.write a v).wf := by
  induction m with
  | nil => simp [Memory.write, Memory.wf]
  | cons c m ih =>
    obtain ⟨b, u⟩ := c
    have ⟨hb, hr⟩ := List.pairwise_cons.1 hm
    simp only [Memory.write]
    split
    · refine List.pairwise_cons.2 ⟨fun d hd => ?_, hm⟩
      rcases List.mem_cons.1 hd with rfl | hd
      · assumption
      · have := hb d hd; simp only at this ⊢; omega
    · split
      · subst b; exact List.pairwise_cons.2 ⟨hb, hr⟩
      · refine List.pairwise_cons.2 ⟨fun d hd => ?_, ih hr⟩
        rcases Memory.mem_write hd with rfl | hd
        · simp only; omega
        · exact hb d hd

/-- A string written keeps the canonical form. -/
theorem Memory.wf_writeBytes {m : Memory} (hm : m.wf) (a : Nat) (s : List Byte) : (m.writeBytes a s).wf := by
  induction s generalizing m a with
  | nil => exact hm
  | cons v s ih => exact ih (Memory.wf_write hm a v) (a + 1)

/-- Forgetting keeps the canonical form. -/
theorem Memory.wf_forgetFrom {m : Memory} (hm : m.wf) (n : Nat) : (m.forgetFrom n).wf := List.Pairwise.filter _ hm

/-- What a string written makes every address read as. -/
theorem Memory.read_writeBytes (m : Memory) (a : Nat) (s : List Byte) (x : Nat) :
    (m.writeBytes a s).read x = if a ≤ x ∧ x < a + s.length then s[x - a]? else m.read x := by
  induction s generalizing m a with
  | nil => simp only [Memory.writeBytes, List.length_nil]; rw [if_neg (by omega)]
  | cons v s ih =>
    simp only [Memory.writeBytes, ih, List.length_cons]
    by_cases hx : x = a
    · subst x; simp
    · rw [Memory.read_write_other _ _ hx]
      by_cases h : a + 1 ≤ x ∧ x < a + 1 + s.length
      · rw [if_pos h, if_pos (by omega), List.getElem?_cons, if_neg (by omega)]
        congr 1
      · rw [if_neg h, if_neg (by omega)]

/-- Forgetting drops the bytes at and above `n` and no others. -/
theorem Memory.read_forgetFrom (m : Memory) (n x : Nat) :
    (m.forgetFrom n).read x = if x < n then m.read x else none := by
  induction m with
  | nil => simp [Memory.forgetFrom]
  | cons c m ih =>
    obtain ⟨b, u⟩ := c
    simp only [Memory.forgetFrom, List.filter_cons] at ih ⊢
    by_cases hb : b < n
    · simp only [hb, decide_true, if_true, Memory.read_cons, ih]
      by_cases hx : x = b
      · subst x; simp [hb]
      · simp [hx]
    · simp only [hb, decide_false, Bool.false_eq_true, if_false, ih, Memory.read_cons]
      by_cases hx : x < n
      · rw [if_pos hx, if_pos hx, if_neg (by omega)]
      · simp [hx]

/-- Two canonical memories that read alike at every address are the same list. -/
theorem Memory.ext_read {m m' : Memory} (hm : m.wf) (hm' : m'.wf) (h : ∀ a, m.read a = m'.read a) : m = m' := by
  induction m generalizing m' with
  | nil =>
    cases m' with
    | nil => rfl
    | cons c m' => have := h c.1; simp [Memory.read] at this
  | cons c m ih =>
    cases m' with
    | nil => have := h c.1; simp [Memory.read] at this
    | cons d m' =>
      obtain ⟨b, u⟩ := c
      obtain ⟨b', u'⟩ := d
      have ⟨hb, hr⟩ := List.pairwise_cons.1 hm
      have ⟨hb', hr'⟩ := List.pairwise_cons.1 hm'
      have hn : Memory.read m b = none := Memory.read_eq_none_of_lt hb
      have hn' : Memory.read m' b' = none := Memory.read_eq_none_of_lt hb'
      have e : b = b' := by
        rcases Nat.lt_trichotomy b b' with hlt | he | hlt
        · have := h b
          rw [Memory.read_cons, if_pos rfl, Memory.read_cons, if_neg (by omega),
            Memory.read_eq_none_of_lt fun c hc => Nat.lt_trans hlt (hb' c hc)] at this
          exact absurd this (by simp)
        · exact he
        · have := h b'
          rw [Memory.read_cons, if_neg (by omega), Memory.read_cons, if_pos rfl,
            Memory.read_eq_none_of_lt fun c hc => Nat.lt_trans hlt (hb c hc)] at this
          exact absurd this (by simp)
      subst b'
      have eu : u = u' := by simpa [Memory.read_cons] using h b
      subst u'
      congr 1
      refine ih hr hr' fun a => ?_
      by_cases ha : a = b
      · subst a; rw [hn, hn']
      · simpa [Memory.read_cons, ha] using h a

/-- Reading a span answers a string exactly when every byte of it has a value, and then that string. -/
theorem Memory.readBytes_eq_some_iff (m : Memory) (a n : Nat) (s : List Byte) :
    m.readBytes a n = some s ↔ s.length = n ∧ ∀ k < n, m.read (a + k) = s[k]? := by
  induction n generalizing a s with
  | zero =>
    simp only [Memory.readBytes, Option.some.injEq, Nat.not_lt_zero, false_implies, implies_true, and_true]
    exact ⟨fun h => h ▸ rfl, fun h => (List.length_eq_zero_iff.1 h).symm⟩
  | succ n ih =>
    simp only [Memory.readBytes]
    cases hv : m.read a with
    | none =>
      simp only [reduceCtorEq, false_iff, not_and, Classical.not_forall]
      intro hl
      refine ⟨0, by omega, ?_⟩
      rw [Nat.add_zero, hv]
      cases s with
      | nil => simp at hl
      | cons b s => simp
    | some v =>
      cases hr : m.readBytes (a + 1) n with
      | none =>
        simp only [reduceCtorEq, false_iff, not_and]
        intro hl hk
        cases s with
        | nil => simp at hl
        | cons b s =>
          have := (ih (a + 1) s).2 ⟨by simpa using hl, fun k hk' => by
            have := hk (k + 1) (by omega)
            rw [show a + (k + 1) = a + 1 + k from by omega] at this
            simpa using this⟩
          simp [hr] at this
      | some r =>
        have hr' := (ih (a + 1) r).1 hr
        simp only [Option.some.injEq]
        constructor
        · rintro rfl
          refine ⟨by simp [hr'.1], fun k hk => ?_⟩
          cases k with
          | zero => simpa using hv
          | succ k =>
            have := hr'.2 k (by omega)
            rw [show a + (k + 1) = a + 1 + k from by omega]
            simpa using this
        · rintro ⟨hl, hk⟩
          cases s with
          | nil => simp at hl
          | cons b s =>
            have h0 := hk 0 (by omega)
            rw [Nat.add_zero, hv] at h0
            have hs := (ih (a + 1) s).2 ⟨by simpa using hl, fun k hk' => by
              have := hk (k + 1) (by omega)
              rw [show a + (k + 1) = a + 1 + k from by omega] at this
              simpa using this⟩
            rw [hr] at hs
            simp at h0 hs
            rw [h0, hs]

end Sys2Proof.Machine
end

