-- ==== Sys2Proof/Laws/State.lean ====
section
/-!
SUPPORT. What every named update of State does to every field: one lemma per field per update, true by `rfl`, so that
no later proof unfolds a record update.
-/

namespace Sys2Proof.Machine

@[simp] theorem State.setFill_v (r : Fin 64) (s : State) : (s.setFill r).v = s.v := rfl
@[simp] theorem State.setFill_nbits (r : Fin 64) (s : State) : (s.setFill r).nbits = s.nbits := rfl
@[simp] theorem State.setFill_buf (r : Fin 64) (s : State) : (s.setFill r).buf = s.buf.forgetFrom r.val := rfl
@[simp] theorem State.setFill_idx (r : Fin 64) (s : State) : (s.setFill r).idx = r := rfl
@[simp] theorem State.setFill_st (r : Fin 64) (s : State) : (s.setFill r).st = s.st := rfl
@[simp] theorem State.setFill_bksel (r : Fin 64) (s : State) : (s.setFill r).bksel = s.bksel := rfl
@[simp] theorem State.setFill_comp (r : Fin 64) (s : State) : (s.setFill r).comp = s.comp := rfl
@[simp] theorem State.setFill_cmd (r : Fin 64) (s : State) : (s.setFill r).cmd = s.cmd := rfl
@[simp] theorem State.setFill_rsp (r : Fin 64) (s : State) : (s.setFill r).rsp = s.rsp := rfl

@[simp] theorem State.storePending_v (rest : List Byte) (s : State) : (s.storePending rest).v = s.v := rfl
@[simp] theorem State.storePending_nbits (rest : List Byte) (s : State) : (s.storePending rest).nbits = s.nbits := rfl
@[simp] theorem State.storePending_buf (rest : List Byte) (s : State) : (s.storePending rest).buf = (s.buf.writeBytes 0 rest).forgetFrom (rest.length % 64) := rfl
@[simp] theorem State.storePending_idx (rest : List Byte) (s : State) : (s.storePending rest).idx = Fin.ofNat 64 rest.length := rfl
@[simp] theorem State.storePending_st (rest : List Byte) (s : State) : (s.storePending rest).st = s.st := rfl
@[simp] theorem State.storePending_bksel (rest : List Byte) (s : State) : (s.storePending rest).bksel = s.bksel := rfl
@[simp] theorem State.storePending_comp (rest : List Byte) (s : State) : (s.storePending rest).comp = s.comp := rfl
@[simp] theorem State.storePending_cmd (rest : List Byte) (s : State) : (s.storePending rest).cmd = s.cmd := rfl
@[simp] theorem State.storePending_rsp (rest : List Byte) (s : State) : (s.storePending rest).rsp = s.rsp := rfl

@[simp] theorem State.countBytes_v (n : Nat) (s : State) : (s.countBytes n).v = s.v := rfl
@[simp] theorem State.countBytes_nbits (n : Nat) (s : State) : (s.countBytes n).nbits = s.nbits + BitVec.ofNat 64 (8 * n) := rfl
@[simp] theorem State.countBytes_buf (n : Nat) (s : State) : (s.countBytes n).buf = s.buf := rfl
@[simp] theorem State.countBytes_idx (n : Nat) (s : State) : (s.countBytes n).idx = s.idx := rfl
@[simp] theorem State.countBytes_st (n : Nat) (s : State) : (s.countBytes n).st = s.st := rfl
@[simp] theorem State.countBytes_bksel (n : Nat) (s : State) : (s.countBytes n).bksel = s.bksel := rfl
@[simp] theorem State.countBytes_comp (n : Nat) (s : State) : (s.countBytes n).comp = s.comp := rfl
@[simp] theorem State.countBytes_cmd (n : Nat) (s : State) : (s.countBytes n).cmd = s.cmd := rfl
@[simp] theorem State.countBytes_rsp (n : Nat) (s : State) : (s.countBytes n).rsp = s.rsp := rfl

@[simp] theorem State.respond_v (status opc : Byte) (pl : List Byte) (s : State) : (s.respond status opc pl).v = s.v := rfl
@[simp] theorem State.respond_nbits (status opc : Byte) (pl : List Byte) (s : State) : (s.respond status opc pl).nbits = s.nbits := rfl
@[simp] theorem State.respond_buf (status opc : Byte) (pl : List Byte) (s : State) : (s.respond status opc pl).buf = s.buf := rfl
@[simp] theorem State.respond_idx (status opc : Byte) (pl : List Byte) (s : State) : (s.respond status opc pl).idx = s.idx := rfl
@[simp] theorem State.respond_st (status opc : Byte) (pl : List Byte) (s : State) : (s.respond status opc pl).st = s.st := rfl
@[simp] theorem State.respond_bksel (status opc : Byte) (pl : List Byte) (s : State) : (s.respond status opc pl).bksel = s.bksel := rfl
@[simp] theorem State.respond_comp (status opc : Byte) (pl : List Byte) (s : State) : (s.respond status opc pl).comp = none := rfl
@[simp] theorem State.respond_cmd (status opc : Byte) (pl : List Byte) (s : State) : (s.respond status opc pl).cmd = s.cmd := rfl
@[simp] theorem State.respond_rsp (status opc : Byte) (pl : List Byte) (s : State) : (s.respond status opc pl).rsp = s.rsp ++ [rspPacket status opc pl] := rfl

@[simp] theorem State.respondOk_v (opc : Byte) (pl : List Byte) (s : State) : (s.respondOk opc pl).v = s.v := rfl
@[simp] theorem State.respondOk_nbits (opc : Byte) (pl : List Byte) (s : State) : (s.respondOk opc pl).nbits = s.nbits := rfl
@[simp] theorem State.respondOk_buf (opc : Byte) (pl : List Byte) (s : State) : (s.respondOk opc pl).buf = s.buf := rfl
@[simp] theorem State.respondOk_idx (opc : Byte) (pl : List Byte) (s : State) : (s.respondOk opc pl).idx = s.idx := rfl
@[simp] theorem State.respondOk_st (opc : Byte) (pl : List Byte) (s : State) : (s.respondOk opc pl).st = s.st := rfl
@[simp] theorem State.respondOk_bksel (opc : Byte) (pl : List Byte) (s : State) : (s.respondOk opc pl).bksel = s.bksel := rfl
@[simp] theorem State.respondOk_comp (opc : Byte) (pl : List Byte) (s : State) : (s.respondOk opc pl).comp = none := rfl
@[simp] theorem State.respondOk_cmd (opc : Byte) (pl : List Byte) (s : State) : (s.respondOk opc pl).cmd = s.cmd := rfl
@[simp] theorem State.respondOk_rsp (opc : Byte) (pl : List Byte) (s : State) : (s.respondOk opc pl).rsp = s.rsp ++ [rspPacket 0x00#8 opc pl] := rfl

@[simp] theorem State.reject_v (f : Rejection) (opc : Byte) (s : State) : (s.reject f opc).v = s.v := rfl
@[simp] theorem State.reject_nbits (f : Rejection) (opc : Byte) (s : State) : (s.reject f opc).nbits = s.nbits := rfl
@[simp] theorem State.reject_buf (f : Rejection) (opc : Byte) (s : State) : (s.reject f opc).buf = s.buf := rfl
@[simp] theorem State.reject_idx (f : Rejection) (opc : Byte) (s : State) : (s.reject f opc).idx = s.idx := rfl
@[simp] theorem State.reject_st (f : Rejection) (opc : Byte) (s : State) : (s.reject f opc).st = s.st := rfl
@[simp] theorem State.reject_bksel (f : Rejection) (opc : Byte) (s : State) : (s.reject f opc).bksel = s.bksel := rfl
@[simp] theorem State.reject_comp (f : Rejection) (opc : Byte) (s : State) : (s.reject f opc).comp = none := rfl
@[simp] theorem State.reject_cmd (f : Rejection) (opc : Byte) (s : State) : (s.reject f opc).cmd = s.cmd := rfl
@[simp] theorem State.reject_rsp (f : Rejection) (opc : Byte) (s : State) : (s.reject f opc).rsp = s.rsp ++ [rspPacket f.code opc []] := rfl

@[simp] theorem State.activate_v (s : State) : (s.activate).v = s.v := rfl
@[simp] theorem State.activate_nbits (s : State) : (s.activate).nbits = s.nbits := rfl
@[simp] theorem State.activate_buf (s : State) : (s.activate).buf = s.buf := rfl
@[simp] theorem State.activate_idx (s : State) : (s.activate).idx = s.idx := rfl
@[simp] theorem State.activate_st (s : State) : (s.activate).st = .active := rfl
@[simp] theorem State.activate_bksel (s : State) : (s.activate).bksel = s.bksel := rfl
@[simp] theorem State.activate_comp (s : State) : (s.activate).comp = s.comp := rfl
@[simp] theorem State.activate_cmd (s : State) : (s.activate).cmd = s.cmd := rfl
@[simp] theorem State.activate_rsp (s : State) : (s.activate).rsp = s.rsp := rfl

@[simp] theorem State.consume_v (s : State) : (s.consume).v = s.v := rfl
@[simp] theorem State.consume_nbits (s : State) : (s.consume).nbits = s.nbits := rfl
@[simp] theorem State.consume_buf (s : State) : (s.consume).buf = s.buf := rfl
@[simp] theorem State.consume_idx (s : State) : (s.consume).idx = s.idx := rfl
@[simp] theorem State.consume_st (s : State) : (s.consume).st = .terminal := rfl
@[simp] theorem State.consume_bksel (s : State) : (s.consume).bksel = s.bksel := rfl
@[simp] theorem State.consume_comp (s : State) : (s.consume).comp = s.comp := rfl
@[simp] theorem State.consume_cmd (s : State) : (s.consume).cmd = s.cmd := rfl
@[simp] theorem State.consume_rsp (s : State) : (s.consume).rsp = s.rsp := rfl

@[simp] theorem State.loadLanes_v (recs : List (Chain × Block)) (s : State) : (s.loadLanes recs).v = s.v := rfl
@[simp] theorem State.loadLanes_nbits (recs : List (Chain × Block)) (s : State) : (s.loadLanes recs).nbits = s.nbits := rfl
@[simp] theorem State.loadLanes_buf (recs : List (Chain × Block)) (s : State) : (s.loadLanes recs).buf = s.buf := rfl
@[simp] theorem State.loadLanes_idx (recs : List (Chain × Block)) (s : State) : (s.loadLanes recs).idx = s.idx := rfl
@[simp] theorem State.loadLanes_st (recs : List (Chain × Block)) (s : State) : (s.loadLanes recs).st = s.st := rfl
@[simp] theorem State.loadLanes_bksel (recs : List (Chain × Block)) (s : State) : (s.loadLanes recs).bksel = s.bksel := rfl
@[simp] theorem State.loadLanes_comp (recs : List (Chain × Block)) (s : State) : (s.loadLanes recs).comp = some (Compression.load recs) := rfl
@[simp] theorem State.loadLanes_cmd (recs : List (Chain × Block)) (s : State) : (s.loadLanes recs).cmd = s.cmd := rfl
@[simp] theorem State.loadLanes_rsp (recs : List (Chain × Block)) (s : State) : (s.loadLanes recs).rsp = s.rsp := rfl

@[simp] theorem State.runLanes_v (bk : Backend) (s : State) : (s.runLanes bk).v = s.v := rfl
@[simp] theorem State.runLanes_nbits (bk : Backend) (s : State) : (s.runLanes bk).nbits = s.nbits := rfl
@[simp] theorem State.runLanes_buf (bk : Backend) (s : State) : (s.runLanes bk).buf = s.buf := rfl
@[simp] theorem State.runLanes_idx (bk : Backend) (s : State) : (s.runLanes bk).idx = s.idx := rfl
@[simp] theorem State.runLanes_st (bk : Backend) (s : State) : (s.runLanes bk).st = s.st := rfl
@[simp] theorem State.runLanes_bksel (bk : Backend) (s : State) : (s.runLanes bk).bksel = s.bksel := rfl
@[simp] theorem State.runLanes_comp (bk : Backend) (s : State) : (s.runLanes bk).comp = s.comp.map (Compression.run bk) := rfl
@[simp] theorem State.runLanes_cmd (bk : Backend) (s : State) : (s.runLanes bk).cmd = s.cmd := rfl
@[simp] theorem State.runLanes_rsp (bk : Backend) (s : State) : (s.runLanes bk).rsp = s.rsp := rfl

@[simp] theorem State.dropLanes_v (s : State) : (s.dropLanes).v = s.v := rfl
@[simp] theorem State.dropLanes_nbits (s : State) : (s.dropLanes).nbits = s.nbits := rfl
@[simp] theorem State.dropLanes_buf (s : State) : (s.dropLanes).buf = s.buf := rfl
@[simp] theorem State.dropLanes_idx (s : State) : (s.dropLanes).idx = s.idx := rfl
@[simp] theorem State.dropLanes_st (s : State) : (s.dropLanes).st = s.st := rfl
@[simp] theorem State.dropLanes_bksel (s : State) : (s.dropLanes).bksel = s.bksel := rfl
@[simp] theorem State.dropLanes_comp (s : State) : (s.dropLanes).comp = none := rfl
@[simp] theorem State.dropLanes_cmd (s : State) : (s.dropLanes).cmd = s.cmd := rfl
@[simp] theorem State.dropLanes_rsp (s : State) : (s.dropLanes).rsp = s.rsp := rfl

@[simp] theorem State.compressBlock_v (b : Block) (s : State) : (s.compressBlock b).v = (((Compression.load [(s.v, b)]).run s.bksel).outputs).headD s.v := rfl
@[simp] theorem State.compressBlock_nbits (b : Block) (s : State) : (s.compressBlock b).nbits = s.nbits := rfl
@[simp] theorem State.compressBlock_buf (b : Block) (s : State) : (s.compressBlock b).buf = s.buf := rfl
@[simp] theorem State.compressBlock_idx (b : Block) (s : State) : (s.compressBlock b).idx = s.idx := rfl
@[simp] theorem State.compressBlock_st (b : Block) (s : State) : (s.compressBlock b).st = s.st := rfl
@[simp] theorem State.compressBlock_bksel (b : Block) (s : State) : (s.compressBlock b).bksel = s.bksel := rfl
@[simp] theorem State.compressBlock_comp (b : Block) (s : State) : (s.compressBlock b).comp = none := rfl
@[simp] theorem State.compressBlock_cmd (b : Block) (s : State) : (s.compressBlock b).cmd = s.cmd := rfl
@[simp] theorem State.compressBlock_rsp (b : Block) (s : State) : (s.compressBlock b).rsp = s.rsp := rfl

@[simp] theorem State.takePacket_v (rest : List Byte) (s : State) : (s.takePacket rest).v = s.v := rfl
@[simp] theorem State.takePacket_nbits (rest : List Byte) (s : State) : (s.takePacket rest).nbits = s.nbits := rfl
@[simp] theorem State.takePacket_buf (rest : List Byte) (s : State) : (s.takePacket rest).buf = s.buf := rfl
@[simp] theorem State.takePacket_idx (rest : List Byte) (s : State) : (s.takePacket rest).idx = s.idx := rfl
@[simp] theorem State.takePacket_st (rest : List Byte) (s : State) : (s.takePacket rest).st = s.st := rfl
@[simp] theorem State.takePacket_bksel (rest : List Byte) (s : State) : (s.takePacket rest).bksel = s.bksel := rfl
@[simp] theorem State.takePacket_comp (rest : List Byte) (s : State) : (s.takePacket rest).comp = s.comp := rfl
@[simp] theorem State.takePacket_cmd (rest : List Byte) (s : State) : (s.takePacket rest).cmd = rest := rfl
@[simp] theorem State.takePacket_rsp (rest : List Byte) (s : State) : (s.takePacket rest).rsp = s.rsp := rfl

@[simp] theorem State.rejectPacket_v (opc : Byte) (rest : List Byte) (s : State) : (s.rejectPacket opc rest).v = s.v := rfl
@[simp] theorem State.rejectPacket_nbits (opc : Byte) (rest : List Byte) (s : State) : (s.rejectPacket opc rest).nbits = s.nbits := rfl
@[simp] theorem State.rejectPacket_buf (opc : Byte) (rest : List Byte) (s : State) : (s.rejectPacket opc rest).buf = s.buf := rfl
@[simp] theorem State.rejectPacket_idx (opc : Byte) (rest : List Byte) (s : State) : (s.rejectPacket opc rest).idx = s.idx := rfl
@[simp] theorem State.rejectPacket_st (opc : Byte) (rest : List Byte) (s : State) : (s.rejectPacket opc rest).st = s.st := rfl
@[simp] theorem State.rejectPacket_bksel (opc : Byte) (rest : List Byte) (s : State) : (s.rejectPacket opc rest).bksel = s.bksel := rfl
@[simp] theorem State.rejectPacket_comp (opc : Byte) (rest : List Byte) (s : State) : (s.rejectPacket opc rest).comp = none := rfl
@[simp] theorem State.rejectPacket_cmd (opc : Byte) (rest : List Byte) (s : State) : (s.rejectPacket opc rest).cmd = rest := rfl
@[simp] theorem State.rejectPacket_rsp (opc : Byte) (rest : List Byte) (s : State) : (s.rejectPacket opc rest).rsp = s.rsp ++ [rspPacket 0x02#8 opc []] := rfl

@[simp] theorem State.send_v (bytes : List Byte) (s : State) : (s.send bytes).v = s.v := rfl
@[simp] theorem State.send_nbits (bytes : List Byte) (s : State) : (s.send bytes).nbits = s.nbits := rfl
@[simp] theorem State.send_buf (bytes : List Byte) (s : State) : (s.send bytes).buf = s.buf := rfl
@[simp] theorem State.send_idx (bytes : List Byte) (s : State) : (s.send bytes).idx = s.idx := rfl
@[simp] theorem State.send_st (bytes : List Byte) (s : State) : (s.send bytes).st = s.st := rfl
@[simp] theorem State.send_bksel (bytes : List Byte) (s : State) : (s.send bytes).bksel = s.bksel := rfl
@[simp] theorem State.send_comp (bytes : List Byte) (s : State) : (s.send bytes).comp = s.comp := rfl
@[simp] theorem State.send_cmd (bytes : List Byte) (s : State) : (s.send bytes).cmd = s.cmd ++ bytes := rfl
@[simp] theorem State.send_rsp (bytes : List Byte) (s : State) : (s.send bytes).rsp = s.rsp := rfl

@[simp] theorem State.resetNow_v (s : State) : (s.resetNow).v = State.reset.v := rfl
@[simp] theorem State.resetNow_nbits (s : State) : (s.resetNow).nbits = State.reset.nbits := rfl
@[simp] theorem State.resetNow_buf (s : State) : (s.resetNow).buf = State.reset.buf := rfl
@[simp] theorem State.resetNow_idx (s : State) : (s.resetNow).idx = State.reset.idx := rfl
@[simp] theorem State.resetNow_st (s : State) : (s.resetNow).st = State.reset.st := rfl
@[simp] theorem State.resetNow_bksel (s : State) : (s.resetNow).bksel = State.reset.bksel := rfl
@[simp] theorem State.resetNow_comp (s : State) : (s.resetNow).comp = State.reset.comp := rfl
@[simp] theorem State.resetNow_cmd (s : State) : (s.resetNow).cmd = State.reset.cmd := rfl
@[simp] theorem State.resetNow_rsp (s : State) : (s.resetNow).rsp = s.rsp := rfl

@[simp] theorem State.withFetchWord_v (s : State) (nbits w : Nat) : (s.withFetchWord nbits w).v = s.v := rfl
@[simp] theorem State.withFetchWord_nbits (s : State) (nbits w : Nat) : (s.withFetchWord nbits w).nbits = s.nbits := rfl
@[simp] theorem State.withFetchWord_buf (s : State) (nbits w : Nat) : (s.withFetchWord nbits w).buf = s.buf := rfl
@[simp] theorem State.withFetchWord_idx (s : State) (nbits w : Nat) : (s.withFetchWord nbits w).idx = s.idx := rfl
@[simp] theorem State.withFetchWord_st (s : State) (nbits w : Nat) : (s.withFetchWord nbits w).st = s.st := rfl
@[simp] theorem State.withFetchWord_bksel (s : State) (nbits w : Nat) : (s.withFetchWord nbits w).bksel = s.bksel := rfl
@[simp] theorem State.withFetchWord_comp (s : State) (nbits w : Nat) : (s.withFetchWord nbits w).comp = s.comp := rfl
@[simp] theorem State.withFetchWord_cmd (s : State) (nbits w : Nat) : (s.withFetchWord nbits w).cmd = tablePacket nbits w ++ s.cmd := rfl
@[simp] theorem State.withFetchWord_rsp (s : State) (nbits w : Nat) : (s.withFetchWord nbits w).rsp = s.rsp := rfl

end Sys2Proof.Machine
end

