-- ==== Sys2Proof/Laws/Engine.lean ====
section
/-!
SUPPORT. What Feed does, and what each meaning can answer: one lemma per shared operation and per meaning.
-/

namespace Sys2Proof.Machine

/-- The engine's blocks change V and the transient state and nothing else. -/
theorem State.compressBlocks_frame (q : Nat) (data : List Byte) (s : State) :
    (s.compressBlocks q data).nbits = s.nbits ∧ (s.compressBlocks q data).buf = s.buf ∧
    (s.compressBlocks q data).idx = s.idx ∧ (s.compressBlocks q data).st = s.st ∧
    (s.compressBlocks q data).bksel = s.bksel ∧ (s.compressBlocks q data).cmd = s.cmd ∧
    (s.compressBlocks q data).rsp = s.rsp := by
  induction q generalizing data s with
  | zero => exact ⟨rfl, rfl, rfl, rfl, rfl, rfl, rfl⟩
  | succ q ih => simpa [State.compressBlocks] using ih (data.drop 64) (s.compressBlock (blockOf (data.take 64)))

@[simp] theorem State.compressBlocks_nbits (q : Nat) (data : List Byte) (s : State) :
    (s.compressBlocks q data).nbits = s.nbits := (s.compressBlocks_frame q data).1

@[simp] theorem State.compressBlocks_buf (q : Nat) (data : List Byte) (s : State) :
    (s.compressBlocks q data).buf = s.buf := (s.compressBlocks_frame q data).2.1

@[simp] theorem State.compressBlocks_idx (q : Nat) (data : List Byte) (s : State) :
    (s.compressBlocks q data).idx = s.idx := (s.compressBlocks_frame q data).2.2.1

@[simp] theorem State.compressBlocks_st (q : Nat) (data : List Byte) (s : State) :
    (s.compressBlocks q data).st = s.st := (s.compressBlocks_frame q data).2.2.2.1

@[simp] theorem State.compressBlocks_bksel (q : Nat) (data : List Byte) (s : State) :
    (s.compressBlocks q data).bksel = s.bksel := (s.compressBlocks_frame q data).2.2.2.2.1

@[simp] theorem State.compressBlocks_cmd (q : Nat) (data : List Byte) (s : State) :
    (s.compressBlocks q data).cmd = s.cmd := (s.compressBlocks_frame q data).2.2.2.2.2.1

@[simp] theorem State.compressBlocks_rsp (q : Nat) (data : List Byte) (s : State) :
    (s.compressBlocks q data).rsp = s.rsp := (s.compressBlocks_frame q data).2.2.2.2.2.2

/-- What every address of BUF reads as after the remainder is stored: the remainder below the fill count, no value at and
above it (R23, R129). -/
theorem State.read_storePending (rest : List Byte) (s : State) (h : rest.length < 64) (a : Nat) :
    (s.storePending rest).buf.read a = rest[a]? := by
  rw [State.storePending_buf, Nat.mod_eq_of_lt h, Memory.read_forgetFrom, Memory.read_writeBytes]
  by_cases ha : a < rest.length
  · simp [ha]
  · simp [ha]

/-- The fill count after the remainder is stored. -/
theorem State.storePending_idx_val (rest : List Byte) (s : State) (h : rest.length < 64) :
    (s.storePending rest).idx.val = rest.length := by
  simp [Nat.mod_eq_of_lt h]

/-- The pending bytes after the remainder is stored are the remainder. -/
theorem State.pending_storePending (rest : List Byte) (s : State) (h : rest.length < 64) :
    (s.storePending rest).pending = some rest := by
  refine (Memory.readBytes_eq_some_iff _ _ _ _).2 ⟨(s.storePending_idx_val rest h).symm, fun k _ => ?_⟩
  rw [Nat.zero_add, s.read_storePending rest h]

/-- The pending bytes are IDX many. -/
theorem State.pending_length {s : State} {p : List Byte} (h : s.pending = some p) : p.length = s.idx.val :=
  ((Memory.readBytes_eq_some_iff _ _ _ _).1 h).1

/-- What BUF reads as below the fill count. -/
theorem State.read_of_pending {s : State} {p : List Byte} (h : s.pending = some p) {a : Nat} (ha : a < s.idx.val) :
    s.buf.read a = p[a]? := by
  have := ((Memory.readBytes_eq_some_iff _ _ _ _).1 h).2 a ha
  rwa [Nat.zero_add] at this

/-- The remainder Feed leaves is shorter than a block. -/
theorem feed_rest_length (str : List Byte) : (str.drop (64 * (str.length / 64))).length = str.length % 64 := by
  rw [List.length_drop]; omega

/-- INIT answers one next state (R126). -/
theorem execInitWith_eq (c : Config) (bk : Backend) (s : State) :
    execInitWith c bk s = .next ((State.setFill 0 { s with v := c.iv, nbits := 0#64, bksel := bk }).activate.respondOk 0x01#8 []) :=
  rfl

/-- All ABSORB can answer: InvalidState in TERMINAL; in ACTIVE, Feed on the pending bytes, or the fault where one of them
has no value. -/
theorem execAbsorb_cases (pay : List Byte) (s : State) :
    (s.st = .terminal ∧ execAbsorb pay s = .next (s.reject .invalidState 0x02#8)) ∨
    (s.st = .active ∧ s.pending = none ∧ execAbsorb pay s = .fault .pendingByteUnspecified) ∨
    (s.st = .active ∧ ∃ p, s.pending = some p ∧
      execAbsorb pay s = .next ((State.feedAfter p pay (s.countBytes pay.length)).respondOk 0x02#8 [])) := by
  unfold execAbsorb
  cases hst : s.st with
  | terminal => exact .inl ⟨rfl, rfl⟩
  | active =>
    have hp : (s.countBytes pay.length).pending = s.pending := rfl
    cases h : s.pending with
    | none => exact .inr (.inl ⟨rfl, rfl, by simp [State.feed, hp, h]⟩)
    | some p => exact .inr (.inr ⟨rfl, p, rfl, by simp [State.feed, hp, h]⟩)

/-- All FINAL can answer: InvalidState in TERMINAL; in ACTIVE, Feed of the padding, the digest and ST = TERMINAL, or the fault
where a pending byte has no value. -/
theorem execFinal_cases (s : State) :
    (s.st = .terminal ∧ execFinal s = .next (s.reject .invalidState 0x03#8)) ∨
    (s.st = .active ∧ s.pending = none ∧ execFinal s = .fault .pendingByteUnspecified) ∨
    (s.st = .active ∧ ∃ p t, s.pending = some p ∧
      t = State.feedAfter p (padBytes s.idx.val s.nbits) (s.countBytes (padBytes s.idx.val s.nbits).length) ∧
      execFinal s = .next (t.consume.respondOk 0x03#8 (stateEnc t.v))) := by
  unfold execFinal
  cases hst : s.st with
  | terminal => exact .inl ⟨rfl, rfl⟩
  | active =>
    have hp : (s.countBytes (padBytes s.idx.val s.nbits).length).pending = s.pending := rfl
    cases h : s.pending with
    | none => exact .inr (.inl ⟨rfl, rfl, by simp [State.feed, hp, h]⟩)
    | some p => exact .inr (.inr ⟨rfl, p, _, rfl, rfl, by simp [State.feed, hp, h]⟩)

/-- A response ends the transient state, whatever it was. -/
theorem State.respondOk_dropped (opc : Byte) (pl : List Byte) (s : State) (x : Option Compression) :
    State.respondOk opc pl { s with comp := x } = s.respondOk opc pl := rfl

/-- All COMPRESS.S can answer. -/
theorem execCompressS_cases (pay : List Byte) (s : State) :
    (pay.length = recordLen ∧ execCompressS pay s = .next (State.respondOk 0x10#8
      (((Compression.load [recordAt pay 0]).run .scalar).outputs.flatMap stateEnc) s)) ∨
    (pay.length ≠ recordLen ∧ execCompressS pay s = .next (s.reject .illegalCommand 0x10#8)) := by
  unfold execCompressS
  by_cases h : pay.length = recordLen
  · rw [if_pos h]; exact .inl ⟨h, by simp only [State.compress_eq, State.respondOk_dropped]⟩
  · rw [if_neg h]; exact .inr ⟨h, rfl⟩

/-- All COMPRESS.U can answer. -/
theorem execCompressU_cases (pay : List Byte) (s : State) :
    (pay.length = recordLen ∧ execCompressU pay s = .next (State.respondOk 0x11#8
      (((Compression.load [recordAt pay 0]).run .unrolled).outputs.flatMap stateEnc) s)) ∨
    (pay.length ≠ recordLen ∧ execCompressU pay s = .next (s.reject .illegalCommand 0x11#8)) := by
  unfold execCompressU
  by_cases h : pay.length = recordLen
  · rw [if_pos h]; exact .inl ⟨h, by simp only [State.compress_eq, State.respondOk_dropped]⟩
  · rw [if_neg h]; exact .inr ⟨h, rfl⟩

/-- All COMPRESS.V can answer, on a core with parameters `c`. -/
theorem execCompressVWith_cases (c : Config) (n : Byte) (pay : List Byte) (s : State) :
    (Instr.wf c (.compressV n pay) = true ∧ execCompressVWith c n pay s = .next (State.respondOk 0x12#8
      (((Compression.load (recordsOf pay n.toNat)).run .vector).outputs.flatMap stateEnc) s)) ∨
    (Instr.wf c (.compressV n pay) = false ∧ execCompressVWith c n pay s = .next (s.reject .illegalCommand 0x12#8)) := by
  unfold execCompressVWith
  by_cases h : 1 ≤ n.toNat ∧ n.toNat ≤ c.nlanes ∧ pay.length = recordLen * n.toNat
  · rw [if_pos h]; exact .inl ⟨by simp [Instr.wf, h], by simp only [State.compress_eq, State.respondOk_dropped]⟩
  · rw [if_neg h]; exact .inr ⟨by simp only [Instr.wf]; simpa [and_assoc] using h, rfl⟩

/-- All COMPRESS.V can answer on this hardware. -/
theorem execCompressV_cases (n : Byte) (pay : List Byte) (s : State) :
    (Instr.wf Config.hw (.compressV n pay) = true ∧ execCompressV n pay s = .next (State.respondOk 0x12#8
      (((Compression.load (recordsOf pay n.toNat)).run .vector).outputs.flatMap stateEnc) s)) ∨
    (Instr.wf Config.hw (.compressV n pay) = false ∧ execCompressV n pay s = .next (s.reject .illegalCommand 0x12#8)) :=
  execCompressVWith_cases Config.hw n pay s

end Sys2Proof.Machine
end

