-- ==== Sys2Proof/Laws/PerInstr.lean ====
section
/-!
SUPPORT. Statements about every command as syntax, one lemma per constructor.
-/

namespace Sys2Proof.Laws

open Sys2Proof.Machine

/-- The shape of a command's packet (R55, R56, R69): its first byte is OPC, its second ARG, its length 4 + the payload's, and where
the command is well-formed the header's LEN is the payload's length. -/
def PacketShape.Statement (i : Instr) : Prop :=
  (encode i).head? = some i.opcode ∧ (encode i)[1]? = some i.arg ∧ (encode i).length = 4 + i.payload.length ∧
  (i.wf Config.hw = true → hdrLen i.header = i.payload.length)

/-- The four facts, from the payload's bound. -/
theorem packetShape_of_bound (i : Instr) (h : i.wf Config.hw = true → i.payload.length < 65536) : PacketShape.Statement i := by
  refine ⟨?_, ?_, by simp [encode], fun hw => ?_⟩
  · exact congrArg some (hdrOpc_append i.opcode i.arg (BitVec.ofNat 16 i.payload.length))
  · exact congrArg some (hdrArg_append i.opcode i.arg (BitVec.ofNat 16 i.payload.length))
  · rw [Instr.header, hdrLen_append, BitVec.toNat_ofNat]
    exact Nat.mod_eq_of_lt (h hw)

theorem PacketShape.init (bk : Backend) : PacketShape.Statement (.init bk) :=
  packetShape_of_bound _ fun _ => by simp [Instr.payload]

theorem PacketShape.absorb (pay : List Byte) : PacketShape.Statement (.absorb pay) :=
  packetShape_of_bound _ fun h => by simp only [Instr.wf, maxLen, decide_eq_true_eq] at h; simp only [Instr.payload]; omega

theorem PacketShape.final : PacketShape.Statement .final :=
  packetShape_of_bound _ fun _ => by simp [Instr.payload]

theorem PacketShape.compressS (pay : List Byte) : PacketShape.Statement (.compressS pay) :=
  packetShape_of_bound _ fun h => by simp only [Instr.wf, recordLen, decide_eq_true_eq] at h; simp only [Instr.payload]; omega

theorem PacketShape.compressU (pay : List Byte) : PacketShape.Statement (.compressU pay) :=
  packetShape_of_bound _ fun h => by simp only [Instr.wf, recordLen, decide_eq_true_eq] at h; simp only [Instr.payload]; omega

theorem PacketShape.compressV (n : Byte) (pay : List Byte) : PacketShape.Statement (.compressV n pay) :=
  packetShape_of_bound _ fun h => by
    simp only [Instr.wf, recordLen, Bool.and_eq_true, decide_eq_true_eq] at h
    have := n.isLt
    simp only [Instr.payload]
    omega

end Sys2Proof.Laws
end

