-- ==== Sys2Proof/Laws/Step.lean ====
section
/-!
SUPPORT. All a step can do, said once.
-/

namespace Sys2Proof.Machine

/-- A step waits, rejects a whole packet that is no command, or executes a command. -/
theorem step_cases (s : State) :
    (decode s.cmd = .incomplete ∧ step s = .next s) ∨
    (∃ opc why rest, decode s.cmd = .illegal opc why rest ∧ step s = .next (s.rejectPacket opc rest)) ∨
    (∃ i rest, decode s.cmd = .command i rest ∧ step s = exec i (s.takePacket rest)) := by
  unfold step
  cases h : decode s.cmd with
  | incomplete => exact .inl ⟨rfl, rfl⟩
  | illegal opc why rest => exact .inr (.inl ⟨opc, why, rest, rfl, rfl⟩)
  | command i rest => exact .inr (.inr ⟨i, rest, rfl, rfl⟩)

/-- The packet that `withFetchWord` places is taken whole: the decoder answers as `decodeTableWord` does. -/
theorem tablePacket_length (nbits w : Nat) :
    (tablePacket nbits w).length = 4 + hdrLen (BitVec.ofNat 32 (w % 2 ^ nbits)) := by
  simp [tablePacket]

end Sys2Proof.Machine
end

