-- ==== Sys2Proof/Tests/Slice0.lean ====
section
/-!
SUPPORT. Our own tests. Every expected value is the spec's: `95_test_vectors.md` (V1 to V11, sections 2, 5 and 9, programs P1 to
P4) or worked by hand from the rule named. The second half holds a witness for every statement with hypotheses.
-/

namespace Sys2Proof.Tests

open Sys2Proof Sys2Proof.Machine

set_option Elab.async false

/-! ### Helpers -/

/-- The state a step answers, if it answers one. -/
def nextOf : Host.Outcome State Fault Refusal → Option State
  | .next s => some s
  | .fault _ => none
  | .refused _ => none

/-- A hash in progress with the bytes "ab" pending (P4, second command). -/
def stateAb : State :=
  { State.reset with
    v := Config.hw.iv, nbits := 16#64, buf := [(0, 0x61#8), (1, 0x62#8)], idx := 2, st := .active }

/-- A hash in progress with 63 pending bytes. -/
def state63 : State :=
  { State.reset with
    v := Config.hw.iv, nbits := 504#64, buf := (List.range 63).map fun a => (a, 0x61#8), idx := 63, st := .active }

/-- The machine after reset with bytes on its command port. -/
def sent (bytes : List Byte) : State := State.reset.send bytes

/-- A hash in progress with bytes on the command port. -/
def sentAb (bytes : List Byte) : State := stateAb.send bytes

/-- The last response of a step's state. -/
def lastRsp (o : Host.Outcome State Fault Refusal) : Option (List Byte) := (nextOf o).bind fun t => t.rsp.getLast?

/-- The zero record. -/
def zeroRecord : List Byte := List.replicate 96 0x00#8

/-- The record (IV, 64 × 00) of V7. -/
def ivRecord : List Byte := stateEnc Config.hw.iv ++ List.replicate 64 0x00#8

/-- A byte string from 32-bit words. -/
def wordsBytes (ws : List Word) : List Byte := ws.flatMap be32enc

/-! ### WellFormed refuses an ill-formed term for each check -/

theorem test_wf_absorb_too_long : Instr.wf Config.hw (.absorb (List.replicate 65536 0#8)) = false := by
  simp only [Instr.wf, List.length_replicate]
  decide

theorem test_wf_compressS_length : Instr.wf Config.hw (.compressS (List.replicate 95 0#8)) = false := by decide

theorem test_wf_compressU_length : Instr.wf Config.hw (.compressU (List.replicate 97 0#8)) = false := by decide

theorem test_wf_compressV_no_lanes : Instr.wf Config.hw (.compressV 0#8 []) = false := by decide

theorem test_wf_compressV_too_many_lanes : Instr.wf Config.hw (.compressV 9#8 (List.replicate 864 0#8)) = false := by
  simp only [Instr.wf, List.length_replicate]
  decide

theorem test_wf_compressV_length : Instr.wf Config.hw (.compressV 2#8 zeroRecord) = false := by decide

/-! ### Words written out bit by bit from the encodings of R60 to R65 decode to what they stand for -/

/-- OPC 0000_0001, ARG 000000 BK=10, LEN 0: INIT V (R60). -/
theorem test_decode_init :
    decodeTableWord 32 (0b00000001_000000_10_0000000000000000) = some (.init .vector) := by decide +kernel

/-- OPC 0000_0010, ARG 0, LEN 1, then the payload word 0x61 00 00 00: ABSORB "a" (R61). -/
theorem test_decode_absorb :
    decode ((be32enc 0b00000010_00000000_0000000000000001#32) ++ [0x61#8]) = .command (.absorb [0x61#8]) [] := by
  decide +kernel

/-- OPC 0000_0011, ARG 0, LEN 0: FINAL (R62). -/
theorem test_decode_final : decodeTableWord 32 0b00000011_00000000_0000000000000000 = some .final := by decide +kernel

/-- OPC 0001_0000, ARG 0, LEN 96: COMPRESS.S (R63). -/
theorem test_decode_compressS :
    decodeTableWord 32 0b00010000_00000000_0000000001100000 = some (.compressS zeroRecord) := by decide +kernel

/-- OPC 0001_0001, ARG 0, LEN 96: COMPRESS.U (R64). -/
theorem test_decode_compressU :
    decodeTableWord 32 0b00010001_00000000_0000000001100000 = some (.compressU zeroRecord) := by decide +kernel

/-- OPC 0001_0010, ARG 8 = NLANES, LEN 768: COMPRESS.V (R65). -/
theorem test_decode_compressV :
    decodeTableWord 32 0b00010010_00001000_0000001100000000 = some (.compressV 8#8 (List.replicate 768 0#8)) := by
  decide +kernel

/-- Section 9: the illegal headers, one reason each (R67). -/
theorem test_decode_illegal :
    decode [0x00#8, 0#8, 0#8, 0#8] = .illegal 0x00#8 .reservedOpcode [] ∧
    decode [0x7F#8, 0#8, 0#8, 2#8, 0xAA#8, 0xBB#8, 0x03#8] = .illegal 0x7F#8 .reservedOpcode [0x03#8] ∧
    decode [0x01#8, 4#8, 0#8, 0#8] = .illegal 0x01#8 .initReservedBits [] ∧
    decode [0x01#8, 3#8, 0#8, 0#8] = .illegal 0x01#8 .initReservedBackend [] ∧
    decode [0x01#8, 0#8, 0#8, 1#8, 0#8] = .illegal 0x01#8 .initLength [] ∧
    decode [0x02#8, 1#8, 0#8, 1#8, 0x61#8] = .illegal 0x02#8 .absorbArgument [] ∧
    decode [0x03#8, 1#8, 0#8, 0#8] = .illegal 0x03#8 .finalArgument [] ∧
    decode [0x03#8, 0#8, 0#8, 1#8, 0#8] = .illegal 0x03#8 .finalLength [] ∧
    decode ([0x10#8, 1#8, 0#8, 0x60#8] ++ zeroRecord) = .illegal 0x10#8 .compressArgument [] ∧
    decode ([0x11#8, 0#8, 0#8, 0x61#8] ++ zeroRecord ++ [0#8]) = .illegal 0x11#8 .compressLength [] ∧
    decode [0x12#8, 0#8, 0#8, 0#8] = .illegal 0x12#8 .noLanes [] ∧
    decode ([0x12#8, 2#8, 0#8, 0x60#8] ++ zeroRecord) = .illegal 0x12#8 .lanesLength [] := by decide +kernel

/-- Section 9: COMPRESS.V with N = 9 > NLANES. -/
theorem test_decode_nine_lanes :
    decode ([0x12#8, 9#8, 0x03#8, 0x60#8] ++ List.replicate 864 0#8) = .illegal 0x12#8 .tooManyLanes [] := by
  decide +kernel

/-! ### Section 2: the helper functions -/

theorem test_rotl :
    rotl 0x80000000#32 1 = 0x00000001#32 ∧ rotl 0x00000001#32 31 = 0x80000000#32 ∧ rotl 0x12345678#32 0 = 0x12345678#32 ∧
    rotl 0x79CC4519#32 12 = 0xC451979C#32 := by decide

theorem test_p0_p1 :
    p0 0x12345678#32 = 0xD6688234#32 ∧ p0 0x80000000#32 = 0x80010100#32 ∧
    p1 0x12345678#32 = 0x05014549#32 ∧ p1 0x61626380#32 = 0x9092E200#32 := by decide

/-- Both bands, on the two sides of the switch. -/
theorem test_ff_gg :
    ff 15 0x12345678#32 0x9ABCDEF0#32 0x0F1E2D3C#32 = 0x8796A5B4#32 ∧
    ff 16 0x12345678#32 0x9ABCDEF0#32 0x0F1E2D3C#32 = 0x1A3C5E78#32 ∧
    gg 15 0x12345678#32 0x9ABCDEF0#32 0x0F1E2D3C#32 = 0x8796A5B4#32 ∧
    gg 16 0x12345678#32 0x9ABCDEF0#32 0x0F1E2D3C#32 = 0x1F3E7F74#32 := by decide

theorem test_byte_order :
    be32dec 0x61#8 0x62#8 0x63#8 0x80#8 = 0x61626380#32 ∧
    be32enc 0x66C7F0F4#32 = [0x66#8, 0xC7#8, 0xF0#8, 0xF4#8] ∧
    be64enc 512#64 = [0#8, 0#8, 0#8, 0#8, 0#8, 0#8, 2#8, 0#8] := by decide

/-- V6, the block B[i] = i: W[16], W[67] and W1[63]. -/
theorem test_expand :
    let x := expand (Vector.ofFn fun i => BitVec.ofNat 8 i.val)
    x.w[16] = 0x69E96BEB#32 ∧ x.w[67] = 0x70A372A1#32 ∧ x.w1[63] = 0xC381C381#32 := by decide +kernel

/-- V5: round 16, the first of the second band, from row 15's registers. -/
theorem test_round_after_band_switch :
    round 16
      { a := 0x392B1D04#32, b := 0x9B220C6A#32, c := 0xDA5DD4AF#32, d := 0xC4C7ED50#32,
        e := 0x40DF342B#32, f := 0x4BB5F054#32, g := 0xEDB91C45#32, h := 0x7F8D8CA1#32 } 0#32 0#32 =
      { a := 0x0D1C6B58#32, b := 0x392B1D04#32, c := 0x4418D536#32, d := 0xDA5DD4AF#32,
        e := 0x33AEA84E#32, f := 0x40DF342B#32, g := 0x82A25DAF#32, h := 0xEDB91C45#32 } := by decide

/-- Section 5: the two cases of the padding at their boundary. -/
theorem test_pad_boundary :
    pad 55 = [0x80#8] ++ [0#8, 0#8, 0#8, 0#8, 0#8, 0#8, 0x01#8, 0xB8#8] ∧
    pad 56 = [0x80#8] ++ List.replicate 63 0#8 ++ [0#8, 0#8, 0#8, 0#8, 0#8, 0#8, 0x01#8, 0xC0#8] := by decide

/-! ### One step of each command -/

/-- P1 and P5: INIT's response, and the context it leaves after a hash in progress. -/
theorem test_init_step :
    nextOf (step (sentAb [0x01#8, 1#8, 0#8, 0#8])) =
      some { State.reset with
        v := Config.hw.iv, st := .active, bksel := .unrolled, rsp := [[0x00#8, 0x01#8, 0#8, 0#8]] } := by decide +kernel

/-- P1's second command: NBITS = 24, IDX = 3, BUF[0..2] = 61 62 63, by "c" after "ab" (P4). -/
theorem test_absorb_step :
    (nextOf (step (sentAb [0x02#8, 0#8, 0#8, 1#8, 0x63#8]))).map (fun t => (t.rsp, t.nbits, t.idx, t.buf)) =
      some ([[0x00#8, 0x02#8, 0#8, 0#8]], 24#64, 3, [(0, 0x61#8), (1, 0x62#8), (2, 0x63#8)]) := by decide +kernel

/-- P2: 40 bytes after 60 complete a block: V is CF(IV, m[0..63]), m[64..99] stay, NBITS is 800. -/
theorem test_absorb_crosses_block :
    (nextOf (exec (.absorb ((List.range 40).map fun i => BitVec.ofNat 8 (0xA5 + 7 * i)))
      { stateAb with
        nbits := 480#64, idx := 60, buf := (List.range 60).map fun i => (i, BitVec.ofNat 8 (7 * i + 1)) })).map
        (fun t => (stateEnc t.v, t.idx, t.nbits, [t.buf.read 0, t.buf.read 35, t.buf.read 36])) =
      some (wordsBytes [0x1E3C0618#32, 0x308E6376#32, 0x145B11EE#32, 0x618600EB#32,
          0x294D8E36#32, 0x3EBADAD1#32, 0xA72AC38A#32, 0xF2D6AF51#32],
        36, 800#64, [some 0xC1#8, some 0xB6#8, none]) := by decide +kernel

/-- V1, the source's known vector: FINAL after "abc". -/
theorem test_final_digest :
    lastRsp (exec .final { stateAb with nbits := 24#64, buf := stateAb.buf ++ [(2, 0x63#8)], idx := 3 }) =
      some ([0x00#8, 0x03#8, 0x00#8, 0x20#8] ++ wordsBytes [0x66C7F0F4#32, 0x62EEEDD9#32, 0xD1F2D46B#32, 0xDC10E4E2#32,
        0x4167C487#32, 0x5CF2F7A2#32, 0x297DA02B#32, 0x8F4BA8E0#32]) := by decide +kernel

/-- V7, row 1: the zero state and block on the scalar backend. -/
theorem test_compressS :
    lastRsp (exec (.compressS zeroRecord) stateAb) =
      some ([0x00#8, 0x10#8, 0x00#8, 0x20#8] ++ wordsBytes [0x2762550F#32, 0x18134933#32, 0xBA35CE4E#32, 0x0A757E65#32,
        0x8C0E7205#32, 0xFE9E4FF6#32, 0x5AC5C88B#32, 0xA3649AC2#32]) := by decide +kernel

/-- V7, row 2: IV and the zero block on the unrolled backend, in TERMINAL. -/
theorem test_compressU :
    lastRsp (exec (.compressU ivRecord) State.reset) =
      some ([0x00#8, 0x11#8, 0x00#8, 0x20#8] ++ wordsBytes [0xA1203A40#32, 0x4A5566CD#32, 0x536FCEE8#32, 0x20DF7E13#32,
        0x35C58F56#32, 0xB7C4C62E#32, 0x813C32CC#32, 0x47BF9B6C#32]) := by decide +kernel

/-- V11's first two records in the other order: rows 2 and 1 of V7. -/
theorem test_compressV :
    lastRsp (exec (.compressV 2#8 (ivRecord ++ zeroRecord)) stateAb) =
      some ([0x00#8, 0x12#8, 0x00#8, 0x40#8] ++ wordsBytes [0xA1203A40#32, 0x4A5566CD#32, 0x536FCEE8#32, 0x20DF7E13#32,
        0x35C58F56#32, 0xB7C4C62E#32, 0x813C32CC#32, 0x47BF9B6C#32, 0x2762550F#32, 0x18134933#32, 0xBA35CE4E#32, 0x0A757E65#32,
        0x8C0E7205#32, 0xFE9E4FF6#32, 0x5AC5C88B#32, 0xA3649AC2#32]) := by decide +kernel

/-- Section 9: the responses in TERMINAL; the operand check wins over InvalidState. -/
theorem test_rejected_in_terminal :
    lastRsp (step (sent [0x02#8, 0#8, 0#8, 1#8, 0#8])) = some [0x01#8, 0x02#8, 0#8, 0#8] ∧
    lastRsp (step (sent [0x03#8, 0#8, 0#8, 0#8])) = some [0x01#8, 0x03#8, 0#8, 0#8] ∧
    lastRsp (step (sent [0x02#8, 1#8, 0#8, 1#8, 0x61#8])) = some [0x02#8, 0x02#8, 0#8, 0#8] := by decide +kernel

/-- Section 9: a reserved opcode's payload is skipped, and the next command runs. -/
theorem test_illegal_payload_is_skipped :
    (nextOf (step (sentAb [0x7F#8, 0#8, 0#8, 2#8, 0xAA#8, 0xBB#8, 0x03#8]))).map (fun t => (t.rsp, t.cmd, t.context == stateAb.context)) =
      some ([[0x02#8, 0x7F#8, 0#8, 0#8]], [0x03#8], true) := by decide +kernel

/-- R69: three header bytes, or a payload one byte short: the core waits. -/
theorem test_short_stream_waits :
    nextOf (step (sent [0x01#8, 0#8, 0#8])) = some (sent [0x01#8, 0#8, 0#8]) ∧
    nextOf (step (sent [0x02#8, 0#8, 0#8, 1#8])) = some (sent [0x02#8, 0#8, 0#8, 1#8]) := by decide +kernel

/-- The packet placed by `withFetchWord` is the one the next step takes, and it takes no more. -/
theorem test_withFetchWord :
    (nextOf (step (State.reset.withFetchWord 32 0x01010000))).map (fun t => (t.cmd, t.bksel, t.st)) =
      some ([], .unrolled, .active) ∧
    decode (State.reset.withFetchWord 32 0x12010060).cmd = .command (.compressV 1#8 zeroRecord) [] := by decide +kernel

/-! ### The textual form -/

/-- R70 and R71: the packets of two lines, and a comment. -/
theorem test_assemble :
    assembleBytes "HASH \"abc\" ; P1".toList =
      some [0x01#8, 0#8, 0#8, 0#8, 0x02#8, 0#8, 0#8, 3#8, 0x61#8, 0x62#8, 0x63#8, 0x03#8, 0#8, 0#8, 0#8] ∧
    assembleBytes "INIT U".toList = some [0x01#8, 1#8, 0#8, 0#8] ∧
    assembleBytes "ABSORB x\"AAbb\"".toList = some [0x02#8, 0#8, 0#8, 2#8, 0xAA#8, 0xBB#8] ∧
    assembleBytes "; only a comment".toList = some [] ∧
    assembleBytes "ABSORB x\"A\"".toList = none := by decide +kernel

/-- R70: a state literal (built by its characters, 123 and 125 being the braces) and a PADBYTES block. -/
theorem test_assemble_state_literal :
    assemble ("COMPRESS.U ".toList ++ [Char.ofNat 123] ++ "1 2 3 4 5 6 7 89ABCDEF".toList ++ [Char.ofNat 125] ++
        ", PADBYTES 0".toList) =
      some [.compressU (wordsBytes [1#32, 2#32, 3#32, 4#32, 5#32, 6#32, 7#32, 0x89ABCDEF#32] ++ 0x80#8 :: List.replicate 63 0#8)] := by
  decide +kernel

theorem test_response_text :
    responseText [0x00#8, 0x02#8, 0#8, 0#8] = some "-> OK".toList ∧
    responseText [0x00#8, 0x03#8, 0#8, 2#8, 0xA0#8, 0x0F#8] = some "-> OK x\"A00F\"".toList ∧
    responseText [0x01#8, 0x03#8, 0#8, 0#8] = some "-> InvalidState".toList := by decide +kernel

/-! ### Witnesses: for every statement with hypotheses, a state and operands that meet them all -/

/-- `stateAb` meets the invariant. -/
theorem stateAb_inv : stateAb.Inv where
  bufCanonical := by decide
  bufHoldsPending a := by
    show (Memory.read [(0, 0x61#8), (1, 0x62#8)] a).isSome = decide (a < 2)
    match a with
    | 0 => rfl
    | 1 => rfl
    | a + 2 => simp [Memory.read]
  fillCount _ := by decide
  wholeBytes _ := by decide
  idle := rfl

/-- So does the state with 63 pending bytes. -/
theorem state63_pending : state63.st = .active ∧ state63.pending = some (List.replicate 63 0x61#8) := by decide +kernel

/-- The invariant does not look at the command port. -/
theorem inv_of_send {s : State} (h : s.Inv) (bytes : List Byte) : (s.send bytes).Inv :=
  ⟨h.bufCanonical, h.bufHoldsPending, h.fillCount, h.wholeBytes, h.idle⟩

/-- DecodeOfEncodeIsTheCommand: each command, at a bound of its operands. -/
theorem witness_DecodeOfEncodeIsTheCommand :
    Instr.wf Config.hw (.init .vector) ∧ Instr.wf Config.hw (.absorb []) ∧ Instr.wf Config.hw .final ∧
    Instr.wf Config.hw (.compressS zeroRecord) ∧ Instr.wf Config.hw (.compressU ivRecord) ∧
    Instr.wf Config.hw (.compressV 1#8 zeroRecord) ∧ Instr.wf Config.hw (.compressV 8#8 (List.replicate 768 0#8)) := by
  decide +kernel

theorem witness_EncodeOfDecodeIsThePacket :
    decodeWith Config.hw [0x02#8, 0#8, 0#8, 1#8, 0x61#8, 0xFF#8] = .command (.absorb [0x61#8]) [0xFF#8] := by decide +kernel

/-- IllegalHeadersAreExactlyTheListed: headers on both sides of each bound, so that both clauses are met. -/
theorem witness_IllegalHeadersAreExactlyTheListed :
    IllegalHeader Config.hw 0x00#8 0#8 0 ∧ IllegalHeader Config.hw 0x04#8 0#8 0 ∧
    ¬ IllegalHeader Config.hw 0x01#8 2#8 0 ∧ IllegalHeader Config.hw 0x01#8 3#8 0 ∧ IllegalHeader Config.hw 0x01#8 4#8 0 ∧
    ¬ IllegalHeader Config.hw 0x02#8 0#8 65535 ∧ IllegalHeader Config.hw 0x02#8 1#8 0 ∧
    ¬ IllegalHeader Config.hw 0x03#8 0#8 0 ∧ IllegalHeader Config.hw 0x03#8 0#8 1 ∧
    ¬ IllegalHeader Config.hw 0x10#8 0#8 96 ∧ IllegalHeader Config.hw 0x10#8 0#8 95 ∧ IllegalHeader Config.hw 0x11#8 0#8 97 ∧
    ¬ IllegalHeader Config.hw 0x12#8 1#8 96 ∧ ¬ IllegalHeader Config.hw 0x12#8 8#8 768 ∧
    IllegalHeader Config.hw 0x12#8 0#8 0 ∧ IllegalHeader Config.hw 0x12#8 9#8 864 := by
  refine ⟨?_, ?_, ?_, ?_, ?_, ?_, ?_, ?_, ?_, ?_, ?_, ?_, ?_, ?_, ?_, ?_⟩ <;> unfold IllegalHeader <;> decide

theorem witness_IllegalCommandIsRejected :
    IllegalHeader Config.hw 0x7F#8 0#8 2 ∧
    (sentAb [0x7F#8, 0#8, 0#8, 2#8, 0xAA#8, 0xBB#8, 0x03#8]).cmd = packet 0x7F#8 0#8 2#16 [0xAA#8, 0xBB#8] ++ [0x03#8] := by
  refine ⟨?_, by decide⟩
  unfold IllegalHeader; decide

theorem witness_StepRunsTheDecodedCommand :
    decode (sentAb [0x03#8, 0#8, 0#8, 0#8]).cmd = .command .final [] ∧
    Instr.wf Config.hw .final ∧ (sentAb [0x03#8, 0#8, 0#8, 0#8]).cmd = encode .final ++ [] := by decide +kernel

/-- PacketLengthsComeFromHeaders: a whole packet with LEN = 0 and with LEN = 2, three bytes, and a payload one byte short. -/
theorem witness_PacketLengthsComeFromHeaders :
    (sentAb [0x03#8, 0#8, 0#8, 0#8, 0x03#8]).Inv ∧ ([] : List Byte).length = hdrLen 0x03000000#32 ∧
    (sentAb [0x03#8, 0#8, 0#8, 0#8, 0x03#8]).cmd = be32enc 0x03000000#32 ++ [] ++ [0x03#8] ∧
    [0xAA#8, 0xBB#8].length = hdrLen 0x7F000002#32 ∧ (sent [0x01#8, 0#8, 0#8]).cmd.length < 4 ∧
    [0xAA#8].length < hdrLen 0x7F000002#32 ∧ (sent [0x7F#8, 0#8, 0#8, 2#8, 0xAA#8]).cmd = be32enc 0x7F000002#32 ++ [0xAA#8] :=
  ⟨inv_of_send stateAb_inv _, by decide, by decide, by decide, by decide, by decide, by decide⟩

/-- EveryPacketGetsOneResponse: an illegal packet; ABSORB in TERMINAL; FINAL in ACTIVE. -/
theorem witness_EveryPacketGetsOneResponse :
    (sentAb [0x03#8, 0#8, 0#8, 1#8, 0#8]).Inv ∧
    (sentAb [0x03#8, 0#8, 0#8, 1#8, 0#8]).cmd = packet 0x03#8 0#8 1#16 [0#8] ++ [] ∧ IllegalHeader Config.hw 0x03#8 0#8 1 ∧
    (sent [0x02#8, 0#8, 0#8, 0#8]).st = .terminal ∧ (sent [0x02#8, 0#8, 0#8, 0#8]).cmd = packet 0x02#8 0#8 0#16 [] ++ [] ∧
    ¬ IllegalHeader Config.hw 0x02#8 0#8 0 ∧
    (sentAb [0x03#8, 0#8, 0#8, 0#8]).st = .active ∧ ¬ IllegalHeader Config.hw 0x03#8 0#8 0 := by
  refine ⟨inv_of_send stateAb_inv _, by decide, ?_, by decide, by decide, ?_, by decide, ?_⟩ <;> unfold IllegalHeader <;> decide

/-- RejectedCommandFailsTheSameWayAgain: FINAL twice in TERMINAL. -/
theorem witness_RejectedCommandFailsTheSameWayAgain :
    let s := sent [0x03#8, 0#8, 0#8, 0#8, 0x03#8, 0#8, 0#8, 0#8]
    s.cmd = packet 0x03#8 0#8 0#16 [] ++ (packet 0x03#8 0#8 0#16 [] ++ []) ∧
    nextOf (step s) = some { sent [0x03#8, 0#8, 0#8, 0#8] with rsp := [[0x01#8, 0x03#8, 0#8, 0#8]] } ∧
    rspStatus [0x01#8, 0x03#8, 0#8, 0#8] ≠ 0x00#8 := by decide +kernel

/-- LaneCountOnlyGatesHeaders: the largest lane count of this hardware, and a core with the largest of all. -/
theorem witness_LaneCountOnlyGatesHeaders :
    let wide : Config := { Config.hw with nlanes := 255 }
    decodeWith Config.hw ([0x12#8, 8#8, 0x03#8, 0x00#8] ++ List.replicate 768 0#8) =
      .command (.compressV 8#8 (List.replicate 768 0#8)) [] ∧
    Instr.wf Config.hw (.compressV 8#8 (List.replicate 768 0#8)) = true ∧
    Instr.wf wide (.compressV 8#8 (List.replicate 768 0#8)) = true := by decide +kernel

/-- RotationMovesEveryBit: both bounds of the amount and of the bit number. -/
theorem witness_RotationMovesEveryBit :
    (0 ≤ 31 ∧ 31 ≤ 31 ∧ 1 ≤ 31 ∧ 31 < 32) ∧ (rotl 0x80000000#32 31).getLsbD 30 = true ∧ (rotl 0x00000001#32 31).getLsbD 31 = true := by
  decide

theorem witness_StateImagesRoundTrip : (zeroRecord.take 32).length = 32 := by decide

/-- ScheduleFollowsTheRecurrence, ExpansionIsLinearOverXor, TableHoldsTheRotatedConstants, DigestIsBigEndianWordByWord: the first and
last index of each range; no index falls under two clauses. -/
theorem witness_index_ranges :
    (0 < 16 ∧ 15 < 16) ∧ (16 < 68 ∧ 16 ≤ 16 ∧ 67 < 68 ∧ 16 ≤ 67) ∧ (0 < 64 ∧ 63 < 64) ∧ (0 ≤ 15 ∧ 15 ≤ 15 ∧ 16 ≤ 16 ∧ 63 ≤ 63) ∧
    (48 ≤ 48 ∧ 48 ≤ 63) ∧ (0 < 8 ∧ 7 < 8) ∧ ¬ ∃ i, i < 16 ∧ 16 ≤ i :=
  ⟨by decide, by decide, by decide, by decide, by decide, by decide, by omega⟩

/-- DerivedWordsAreXorsFourApart: V4's block of 16 equal words. -/
theorem witness_DerivedWordsAreXorsFourApart :
    let b := blockOf ((List.range 16).flatMap fun _ => [0x61#8, 0x62#8, 0x63#8, 0x64#8])
    (∀ i : Fin 16, (expand b).w[i.val] = (expand b).w[0]) ∧ (expand b).w1[11] = 0#32 ∧ (expand b).w1[12] = 0xC043C340#32 := by
  decide +kernel

/-- The two band functions: the bounds of the bands, where the two forms differ. -/
theorem witness_BandFunctionFfIsXorThenMajority :
    (31 < 32 ∧ 15 ≤ 15 ∧ 16 ≤ 16 ∧ 63 ≤ 63) ∧
    ff 15 0x80000000#32 0x80000000#32 0#32 = 0#32 ∧ ff 16 0x80000000#32 0x80000000#32 0#32 = 0x80000000#32 := by decide

theorem witness_BandFunctionGgIsXorThenChoose :
    (31 < 32 ∧ 15 ≤ 15 ∧ 16 ≤ 16 ∧ 63 ≤ 63) ∧
    gg 15 0x80000000#32 0x80000000#32 0#32 = 0#32 ∧ gg 16 0x80000000#32 0x80000000#32 0#32 = 0x80000000#32 := by decide

/-- The compression statements: the payload lengths, at one lane and at NLANES. -/
theorem witness_CompressReturnsCf :
    zeroRecord.length = 96 ∧ ivRecord.length = 96 ∧
    (1 ≤ (1#8).toNat ∧ (1#8).toNat ≤ Config.hw.nlanes ∧ zeroRecord.length = 96 * (1#8).toNat) ∧
    (1 ≤ (8#8).toNat ∧ (8#8).toNat ≤ Config.hw.nlanes ∧ (List.replicate 768 0#8).length = 96 * (8#8).toNat) := by
  decide +kernel

/-- BackendsAnswerTheSameBytes and LaneOutputDependsOnItsOwnRecord: the same record as lane 0 of one and as lane 1, the last, of
two. -/
theorem witness_BackendsAnswerTheSameBytes :
    (ivRecord.take 32).length = 32 ∧ (ivRecord.drop 32).length = 64 ∧
    (zeroRecord ++ ivRecord).length = 96 * (2#8).toNat ∧ 1 < (2#8).toNat ∧ (2#8).toNat ≤ 8 ∧
    ((zeroRecord ++ ivRecord).drop (96 * 1)).take 96 = ivRecord.take 32 ++ ivRecord.drop 32 ∧
    (ivRecord.drop (96 * 0)).take 96 = ((zeroRecord ++ ivRecord).drop (96 * 1)).take 96 := by decide +kernel

/-- LaneOutputDependsOnItsOwnRecord's two runs answer a next state with one more response. -/
theorem witness_LaneOutputDependsOnItsOwnRecord :
    (∃ t r, exec (.compressV 1#8 ivRecord) stateAb = .next t ∧ t.rsp = stateAb.rsp ++ [r]) ∧
    ∃ t r, exec (.compressV 2#8 (zeroRecord ++ ivRecord)) stateAb = .next t ∧ t.rsp = stateAb.rsp ++ [r] :=
  ⟨⟨_, _, rfl, rfl⟩, ⟨_, _, rfl, rfl⟩⟩

theorem witness_VectorBatchEqualsSequentialCalls :
    [ivRecord, zeroRecord].length = (2#8).toNat ∧ 1 ≤ (2#8).toNat ∧ (2#8).toNat ≤ 8 ∧
    ∀ r ∈ [ivRecord, zeroRecord], r.length = 96 := by decide +kernel

theorem witness_CompressCommandsIgnoreTheContext :
    stateAb.rsp = State.reset.rsp ∧ stateAb.context ≠ State.reset.context := by decide

theorem witness_InitErasesTheOldContext :
    stateAb.cmd = State.reset.cmd ∧ stateAb.rsp = State.reset.rsp ∧ stateAb.context ≠ State.reset.context := by decide

/-- AbsorbFeedsTheStream, StepwiseAbsorbAgreesWithFeed, FinalEmitsTheDigest: ACTIVE with pending bytes, none, two and 63 of them. -/
theorem witness_AbsorbFeedsTheStream :
    (stateAb.st = .active ∧ stateAb.pending = some [0x61#8, 0x62#8]) ∧
    (({ stateAb with idx := 0, buf := [], nbits := 0#64 } : State).pending = some []) ∧
    (state63.st = .active ∧ state63.pending = some (List.replicate 63 0x61#8)) := by decide +kernel

/-- AbsorbCornerCases: each clause at its bound: 61 bytes after 2 stay pending, 62 complete the block, and 65535 is a legal
length. -/
theorem witness_AbsorbCornerCases :
    stateAb.Inv ∧ stateAb.st = .active ∧ stateAb.idx.val + (List.replicate 61 0#8).length < 64 ∧
    stateAb.idx.val + (List.replicate 62 0#8).length = 64 ∧ (List.replicate 65535 0#8).length ≤ 65535 :=
  ⟨stateAb_inv, rfl, by decide, by decide, by rw [List.length_replicate]⟩

/-- A hash in progress one block short of 2^64 bits, nothing pending. -/
def stateFull : State := { State.reset with v := Config.hw.iv, nbits := 0xFFFFFFFFFFFFFE00#64, st := .active }

theorem stateFull_inv : stateFull.Inv where
  bufCanonical := by decide
  bufHoldsPending a := by
    show (Memory.read [] a).isSome = decide (a < 0)
    simp [Memory.read]
  fillCount _ := by decide
  wholeBytes _ := by decide
  idle := rfl

/-- BitCounterWrapsSilently: below the wrap, and exactly at it. -/
theorem witness_BitCounterWrapsSilently :
    stateAb.Inv ∧ stateAb.st = .active ∧ stateAb.nbits.toNat + 8 * [0x63#8].length < 2 ^ 64 ∧
    stateFull.Inv ∧ stateFull.st = .active ∧ stateFull.nbits.toNat + 8 * (List.replicate 64 0#8).length = 2 ^ 64 :=
  ⟨stateAb_inv, rfl, by decide, stateFull_inv, rfl, by decide⟩

theorem witness_AbsorbsOfOneStreamLeaveOneContext :
    stateAb.Inv ∧ stateAb.st = .active ∧ [[0x63#8], [], [0x64#8]].flatten = [[0x63#8, 0x64#8]].flatten :=
  ⟨stateAb_inv, rfl, rfl⟩

/-- PaddingCompletesTheLastBlock: the two cases at their bound. -/
theorem witness_PaddingCompletesTheLastBlock : 55 % 64 ≤ 55 ∧ 56 ≤ 56 % 64 ∧ 119 % 64 ≤ 55 ∧ 56 ≤ 120 % 64 := by decide

theorem witness_TerminalRejectsAbsorbAndFinal : State.reset.st = .terminal := rfl

theorem witness_LifecycleFollowsTheTable :
    Instr.wf Config.hw (.absorb [0x63#8]) ∧ stateAb.Inv ∧ (sent []).Inv ∧
    (sent [0x04#8, 0#8, 0#8, 0#8]).cmd = packet 0x04#8 0#8 0#16 [] ++ [] ∧ IllegalHeader Config.hw 0x04#8 0#8 0 := by
  refine ⟨by decide, stateAb_inv, ⟨by decide, fun a => ?_, by decide, by decide, rfl⟩, by decide, ?_⟩
  · show (Memory.read [] a).isSome = decide (a < 0)
    simp [Memory.read]
  · unfold IllegalHeader; decide

/-- AssembledCommandsAreWellFormed: a line that is a well-formed command, and R70's illegal one. -/
theorem witness_AssembledCommandsAreWellFormed :
    assemble "INIT".toList = some [.init .scalar] ∧ assemble "COMPRESS.V".toList = some [.compressV 0#8 []] := by
  decide +kernel

/-- AssembledCompressAnswersCfOfItsLiterals: a block in each of its written forms, and a COMPRESS.V of one and of eight pairs. -/
theorem witness_AssembledCompressAnswersCfOfItsLiterals :
    let hex : Literal := .hex (ivRecord.drop 32)
    let ascii : Literal := .ascii (List.replicate 64 'a')
    let padding : Literal := .padBytes [0]
    (hex.wf = true ∧ hex.value.length = 64) ∧ (ascii.wf = true ∧ ascii.value.length = 64) ∧
    (padding.wf = true ∧ padding.value.length = 64) ∧
    (1 ≤ [(Config.hw.iv, hex)].length ∧ (List.replicate 8 (Config.hw.iv, hex)).length ≤ 8) := by decide +kernel

/-- LinesOfTextStandForTheirCommands: a line of each kind, at the bounds of its operands. -/
theorem witness_LinesOfTextStandForTheirCommands :
    (Line.init none).wf ∧ (Line.init (some .vector)).wf ∧ (Line.absorb (.hex [])).wf ∧ Line.final.wf ∧
    (Line.compressS Config.hw.iv (.padBytes [0])).wf ∧ (Line.compressU Config.hw.iv (.padBytes [6, 4])).wf ∧
    (Line.compressV []).wf ∧ (Line.compressV (List.replicate 255 (Config.hw.iv, .padBytes [0]))).wf ∧
    (Line.hash .vector (.ascii ['a', 'b', 'c'])).wf := by decide +kernel

/-- R70's own form of a state literal, and P1's line. -/
theorem test_line_text :
    (Line.hash .scalar (.ascii "abc".toList)).text = "HASH \"abc\"".toList ∧
    (Line.compressU Config.hw.iv (.padBytes [0])).text =
      "COMPRESS.U ".toList ++ [Char.ofNat 123] ++
        "7380166F 4914B2B9 172442D7 DA8A0600 A96F30BC 163138AA E38DEE4D B0FB0E4E".toList ++ [Char.ofNat 125] ++
        ", PADBYTES 0".toList := by decide +kernel

/-- NoResponseDependsOnTheBackend, OnlyTheListedCommandsWriteEachRegister: a command of each kind answers a next state. -/
theorem witness_execAnswersNext :
    (∃ t, exec (.init .vector) stateAb = .next t) ∧ (∃ t, exec (.absorb [0x63#8]) stateAb = .next t) ∧
    (∃ t, exec .final stateAb = .next t) ∧ (∃ t, exec (.compressS zeroRecord) stateAb = .next t) ∧
    (∃ t, exec (.compressU zeroRecord) stateAb = .next t) ∧ ∃ t, exec (.compressV 1#8 zeroRecord) stateAb = .next t :=
  ⟨⟨_, rfl⟩, ⟨_, rfl⟩, ⟨_, rfl⟩, ⟨_, rfl⟩, ⟨_, rfl⟩, ⟨_, rfl⟩⟩

/-- TerminalContextIsInvisible: two TERMINAL states that differ in the context, and commands that all answer. -/
theorem witness_TerminalContextIsInvisible :
    let s : State := { stateAb with st := .terminal }
    s.st = .terminal ∧ State.reset.st = .terminal ∧ s.cmd = State.reset.cmd ∧ s.rsp = State.reset.rsp ∧
    s.context ≠ State.reset.context ∧ (nextOf (execAll [.final, .init .scalar, .absorb [0x61#8], .absorb []] s)).isSome := by
  decide +kernel

/-- OnlyAnUnspecifiedPendingByteStopsACommand: both sides: IDX = 1 with nothing in BUF, and `stateAb`. -/
theorem witness_OnlyAnUnspecifiedPendingByteStopsACommand :
    let s : State := { stateAb with idx := 1, buf := [] }
    s.st = .active ∧ s.pending = none ∧ (nextOf (exec .final s)).isSome = false ∧ stateAb.pending.isSome := by decide +kernel

/-- StepKeepsStatesAlikeToTheHost: two TERMINAL states with different contexts, and a command on both ports that answers. -/
theorem witness_StepKeepsStatesAlikeToTheHost :
    let s : State := { sentAb [0x01#8, 2#8, 0#8, 0#8] with st := .terminal }
    SameToHost s (sent [0x01#8, 2#8, 0#8, 0#8]) ∧ s ≠ sent [0x01#8, 2#8, 0#8, 0#8] ∧ (nextOf (step s)).isSome :=
  ⟨.inr ⟨rfl, rfl, rfl, rfl⟩, by decide, by decide +kernel⟩

/-- OnlyTheListedCommandsWriteEachRegister, the clause on INIT and BUF: a byte that INIT drops. -/
theorem witness_init_drops_pending_bytes :
    stateAb.buf.read 0 = some 0x61#8 ∧ (nextOf (exec (.init .scalar) stateAb)).map (fun t => t.buf.read 0) = some none := by
  decide +kernel

/-- StepKeepsTheInvariant, CoreNeverStops: a state that meets the invariant, and takes a step that changes it. -/
theorem witness_StepKeepsTheInvariant :
    (sentAb [0x02#8, 0#8, 0#8, 1#8, 0x63#8]).Inv ∧
    (nextOf (step (sentAb [0x02#8, 0#8, 0#8, 1#8, 0x63#8]))).map (fun t => t.idx) = some 3 :=
  ⟨inv_of_send stateAb_inv _, by decide +kernel⟩

/-- ReachableStatesAreSound: reset, bytes sent, a step, and a reset again. -/
theorem witness_ReachableStatesAreSound : Reachable (sent [0x01#8, 0#8, 0#8, 0#8]) ∧ Reachable stateAb.resetNow :=
  ⟨.send _ _ .reset, by
    have h : stateAb.resetNow = State.reset := by decide
    rw [h]; exact .reset⟩

end Sys2Proof.Tests
end

section
/-!
PROOFS of the family "scope": the laws of rotl, of state images and of command packets, and that every
reachable state is sound.
-/

namespace Sys2Proof.Machine

/-! ### Rotation (R10) -/

/-- The definition's two shifts on the word's number: one reduction modulo 2^32 covers both. -/
theorem rotl_toNat (x : Word) (n : Nat) :
    (rotl x n).toNat = ((x.toNat <<< n) ||| (x.toNat >>> (32 - n))) % 2 ^ 32 := by
  have hlow : x.toNat >>> (32 - n) < 2 ^ 32 := Nat.lt_of_le_of_lt (Nat.shiftRight_le _ _) x.isLt
  rw [rotl, BitVec.toNat_or, BitVec.toNat_shiftLeft, BitVec.toNat_ushiftRight, Nat.or_mod_two_pow,
    Nat.mod_eq_of_lt hlow]

/-- Rotation by 0 is the identity: the right shift by 32 leaves no bit. -/
@[simp] theorem rotl_zero (x : Word) : rotl x 0 = x := by
  rw [rotl, BitVec.ushiftRight_eq_zero (Nat.le_refl 32)]
  simp

/-- Every bit moves up by the amount, modulo the width: through the left shift below bit 32, and back in through the
right shift at and above it. -/
theorem getLsbD_rotl (x : Word) {n i : Nat} (hn : n ≤ 31) (hi : i < 32) :
    (rotl x n).getLsbD ((i + n) % 32) = x.getLsbD i := by
  rw [rotl, BitVec.getLsbD_or, BitVec.getLsbD_shiftLeft, BitVec.getLsbD_ushiftRight]
  by_cases hwrap : i + n < 32
  · have hout : x.getLsbD (32 - n + (i + n)) = false := BitVec.getLsbD_of_ge _ _ (by omega)
    simp [Nat.mod_eq_of_lt hwrap, hwrap, hout]
  · have hlow : (i + n) % 32 < n := by omega
    have hback : 32 - n + (i + n) % 32 = i := by omega
    simp [hlow, hback]

/-! ### State images (R12) -/

/-- Four bytes are the big-endian bytes of the word they make. -/
@[simp] theorem be32enc_be32dec (b0 b1 b2 b3 : Byte) : be32enc (be32dec b0 b1 b2 b3) = [b0, b1, b2, b3] := by
  simp only [be32enc, be32dec, List.cons.injEq, and_true]
  refine ⟨?_, ?_, ?_, ?_⟩
  · rw [BitVec.extractLsb'_append_eq_of_le (by decide), BitVec.extractLsb'_append_eq_of_le (by decide),
      BitVec.extractLsb'_append_eq_of_le (by decide), BitVec.extractLsb'_eq_self]
  · rw [BitVec.extractLsb'_append_eq_of_le (by decide), BitVec.extractLsb'_append_eq_of_le (by decide),
      BitVec.extractLsb'_append_eq_right]
  · rw [BitVec.extractLsb'_append_eq_of_le (by decide), BitVec.extractLsb'_append_eq_right]
  · rw [BitVec.extractLsb'_append_eq_right]

/-- The bytes of the word at an offset are the four bytes there. -/
theorem be32enc_wordAt (s : List Byte) {a : Nat} (h : a + 4 ≤ s.length) : be32enc (wordAt s a) = (s.drop a).take 4 := by
  rw [wordAt, be32enc_be32dec]
  have hcons {b : Nat} (hb : b < s.length) : s.drop b = s.getD b 0 :: s.drop (b + 1) := by
    rw [List.drop_eq_getElem_cons hb, List.getD_eq_getElem s 0 hb]
  rw [hcons (by omega), hcons (by omega), hcons (by omega), hcons (by omega)]
  rfl

/-- Encoding the first `n` words of a byte string gives its first `4n` bytes. -/
theorem flatMap_be32enc_wordAt (s : List Byte) (n : Nat) (h : 4 * n ≤ s.length) :
    ((List.range n).map fun i => wordAt s (4 * i)).flatMap be32enc = s.take (4 * n) := by
  induction n with
  | zero => simp
  | succ n ih =>
    rw [List.range_succ, List.map_append, List.flatMap_append, ih (by omega), Nat.mul_succ, List.take_add]
    simp [be32enc_wordAt s (show 4 * n + 4 ≤ s.length by omega)]

/-- Decoding a state image gives the state back: each word is read from its own four bytes (`be32dec_be32enc`). -/
@[simp] theorem stateDec_stateEnc (v : Chain) : stateDec (stateEnc v) = v := by
  simp [stateDec, stateEnc, chainWords, wordAt, be32enc]

/-- Encoding a decoded 32-byte image gives the image back. -/
theorem stateEnc_stateDec {s : List Byte} (h : s.length = 32) : stateEnc (stateDec s) = s := by
  have hwords : chainWords (stateDec s) = (List.range 8).map fun i => wordAt s (4 * i) := rfl
  rw [stateEnc, hwords, flatMap_be32enc_wordAt s 8 (by omega), List.take_of_length_le (by omega)]

end Sys2Proof.Machine

/-! ### Command packets (R55 to R66) -/

namespace Sys2Proof

open Machine

/-- LEN can count the payload of every command, whatever NLANES is: ARG has 8 bits. -/
theorem Instr.payload_length_lt {c : Config} {i : Instr} (h : i.wf c = true) : i.payload.length < 2 ^ 16 := by
  cases i with
  | init bk => exact Nat.two_pow_pos 16
  | absorb pay => exact Nat.lt_succ_of_le (of_decide_eq_true h)
  | final => exact Nat.two_pow_pos 16
  | compressS pay => simp only [wf, recordLen, decide_eq_true_eq] at h; simp only [payload]; omega
  | compressU pay => simp only [wf, recordLen, decide_eq_true_eq] at h; simp only [payload]; omega
  | compressV n pay =>
    simp only [wf, recordLen, Bool.and_eq_true, decide_eq_true_eq] at h
    have := n.isLt
    simp only [payload]
    omega

/-- The opcode map and the operand checks accept the fields of every well-formed command and name that command. -/
theorem decodePacket_of_wf {c : Config} {i : Instr} (h : i.wf c = true) :
    decodePacket c i.opcode i.arg i.payload = .ok i := by
  cases i with
  | init bk => cases bk <;> rfl
  | absorb pay => rfl
  | final => rfl
  | compressS pay =>
    have hlen : pay.length = recordLen := of_decide_eq_true h
    exact if_neg (not_not.2 hlen)
  | compressU pay =>
    have hlen : pay.length = recordLen := of_decide_eq_true h
    exact if_neg (not_not.2 hlen)
  | compressV n pay =>
    simp only [Instr.wf, Bool.and_eq_true, decide_eq_true_eq] at h
    obtain ⟨⟨hpos, hle⟩, hlen⟩ := h
    have hn : n ≠ 0#8 := by rintro rfl; simp at hpos
    change decodeCompressV c n pay = _
    rw [decodeCompressV, if_neg hn, if_neg (Nat.not_lt.2 hle), if_neg (not_not.2 hlen)]

/-- The decoder reads a well-formed command back from its packet and leaves the bytes behind it. -/
theorem decodeWith_encode_append {c : Config} {i : Instr} (h : i.wf c = true) (rest : List Byte) :
    decodeWith c (encode i ++ rest) = .command i rest := by
  have hlen : i.payload.length = (BitVec.ofNat 16 i.payload.length).toNat := by
    rw [BitVec.toNat_ofNat, Nat.mod_eq_of_lt (Instr.payload_length_lt h)]
  rw [encode, List.append_assoc, Instr.header, decodeWith_packet c _ _ _ _ _ hlen, decodePacket_of_wf h]

end Sys2Proof

/-! ### Steps and the invariant (R5, R23, R24, R33) -/

namespace Sys2Proof.Machine

/-- A step on a port that holds a whole command runs that command past its packet. -/
theorem step_of_decode_command {s : State} {i : Instr} {rest : List Byte} (h : decode s.cmd = .command i rest) :
    step s = exec i (s.takePacket rest) := by
  simp only [step, h]

/-- The invariant speaks of the persistent state and the transient state alone, not of the ports. -/
theorem State.Inv.of_context_eq {s t : State} (h : s.Inv) (hctx : t.context = s.context) (hcomp : t.comp = none) :
    t.Inv := by
  simp only [State.context, Context.mk.injEq] at hctx
  obtain ⟨-, hnbits, hbuf, hidx, hst, -⟩ := hctx
  refine ⟨?_, ?_, ?_, ?_, hcomp⟩
  · rw [hbuf]; exact h.bufCanonical
  · rw [hbuf, hidx]; exact h.bufHoldsPending
  · rw [hst, hidx, hnbits]; exact h.fillCount
  · rw [hst, hnbits]; exact h.wholeBytes

theorem State.Inv.send {s : State} (h : s.Inv) (bytes : List Byte) : (s.send bytes).Inv := h.of_context_eq rfl h.idle

theorem State.Inv.takePacket {s : State} (h : s.Inv) (rest : List Byte) : (s.takePacket rest).Inv :=
  h.of_context_eq rfl h.idle

theorem State.Inv.respondOk {s : State} (h : s.Inv) (opc : Byte) (pl : List Byte) : (s.respondOk opc pl).Inv :=
  h.of_context_eq rfl rfl

theorem State.Inv.reject {s : State} (h : s.Inv) (f : Rejection) (opc : Byte) : (s.reject f opc).Inv :=
  h.of_context_eq rfl rfl

/-- In TERMINAL the two clauses about NBITS say nothing. -/
theorem State.Inv.consume {s : State} (h : s.Inv) : s.consume.Inv :=
  ⟨h.bufCanonical, h.bufHoldsPending, nofun, nofun, h.idle⟩

/-- A core that holds no byte and has counted none meets the invariant: after reset and after INIT. -/
theorem State.Inv.of_empty {s : State} (hbuf : s.buf = []) (hidx : s.idx = 0) (hnbits : s.nbits = 0#64)
    (hcomp : s.comp = none) : s.Inv := by
  refine ⟨?_, ?_, ?_, ?_, hcomp⟩ <;> simp [hbuf, hidx, hnbits]

theorem State.reset_inv : State.reset.Inv := .of_empty rfl rfl rfl rfl

theorem State.resetNow_inv (s : State) : s.resetNow.Inv := .of_empty rfl rfl rfl rfl

/-- With fill count 0 every listed byte is dropped. -/
@[simp] theorem Memory.forgetFrom_zero (m : Memory) : m.forgetFrom 0 = [] := by
  simp [Memory.forgetFrom]

/-- Under the invariant every pending byte has a value. -/
theorem State.Inv.exists_pending {s : State} (h : s.Inv) : ∃ p, s.pending = some p := by
  refine ⟨(List.range s.idx.val).map fun a => (s.buf.read a).getD 0, (Memory.readBytes_eq_some_iff _ _ _ _).2 ⟨by simp, ?_⟩⟩
  intro k hk
  obtain ⟨b, hb⟩ : ∃ b, s.buf.read k = some b := by
    rw [← Option.isSome_iff_exists, h.bufHoldsPending, decide_eq_true hk]
  simp [hb, hk]

/-- Blocks compressed from an idle state leave it idle. -/
theorem State.compressBlocks_comp {s : State} (h : s.comp = none) (q : Nat) (data : List Byte) :
    (s.compressBlocks q data).comp = none := by
  induction q generalizing data s with
  | zero => exact h
  | succ q ih => exact ih (State.compressBlock_comp _ _) _

/-- Bytes counted and fed keep the invariant (R24, R129): the remainder's length is the fill count that the new NBITS
stands for, because 512 divides 2^64. -/
theorem State.Inv.feedAfter {s : State} {p : List Byte} (h : s.Inv) (hp : s.pending = some p) (data : List Byte) :
    (State.feedAfter p data (s.countBytes data.length)).Inv := by
  have hrest := feed_rest_length (p ++ data)
  have hlt : ((p ++ data).drop (64 * ((p ++ data).length / 64))).length < 64 := by omega
  unfold State.feedAfter
  refine ⟨?_, fun a => ?_, fun hst => ?_, fun hst => ?_, ?_⟩
  · simpa using Memory.wf_forgetFrom (Memory.wf_writeBytes h.bufCanonical 0 _) _
  · rw [State.read_storePending _ _ hlt, State.storePending_idx_val _ _ hlt, Bool.eq_iff_iff,
      isSome_getElem?, decide_eq_true_iff]
  · have hidx := h.fillCount (by simpa using hst)
    have hwhole := h.wholeBytes (by simpa using hst)
    have hplen := State.pending_length hp
    rw [State.storePending_idx_val _ _ hlt, hrest, List.length_append]
    simp only [State.storePending_nbits, State.compressBlocks_nbits, State.countBytes_nbits, BitVec.toNat_add,
      BitVec.toNat_ofNat]
    omega
  · have hwhole := h.wholeBytes (by simpa using hst)
    simp only [State.storePending_nbits, State.compressBlocks_nbits, State.countBytes_nbits, BitVec.toNat_add,
      BitVec.toNat_ofNat]
    omega
  · simpa using State.compressBlocks_comp (by simpa using h.idle) _ _

/-- What Feed leaves alone. -/
@[simp] theorem State.feedAfter_cmd (p data : List Byte) (s : State) : (s.feedAfter p data).cmd = s.cmd := by
  simp [State.feedAfter]

@[simp] theorem State.feedAfter_rsp (p data : List Byte) (s : State) : (s.feedAfter p data).rsp = s.rsp := by
  simp [State.feedAfter]

/-! ### Every command answers -/

/-- The command is answered: the machine goes on in a state that meets the invariant, with one more response and the
command port untouched (R55, R155). -/
def State.AnsweredBy (s : State) (o : Host.Outcome State Fault Refusal) : Prop :=
  ∃ t, o = .next t ∧ t.Inv ∧ t.cmd = s.cmd ∧ ∃ r, t.rsp = s.rsp ++ [r]

/-- An executed command's response on any state `t` with the ports of `s`. -/
theorem State.AnsweredBy.respondOk {s t : State} (h : t.Inv) (hcmd : t.cmd = s.cmd) (hrsp : t.rsp = s.rsp) (opc : Byte)
    (pl : List Byte) : s.AnsweredBy (.next (t.respondOk opc pl)) :=
  ⟨_, rfl, h.respondOk opc pl, hcmd, _, by rw [State.respondOk_rsp, hrsp]⟩

theorem State.AnsweredBy.reject {s : State} (h : s.Inv) (f : Rejection) (opc : Byte) :
    s.AnsweredBy (.next (s.reject f opc)) :=
  ⟨_, rfl, h.reject f opc, rfl, _, rfl⟩

/-- INIT answers from every state: nothing of the old context is left (R126). -/
theorem execInitWith_answers (c : Config) (bk : Backend) (s : State) : s.AnsweredBy (execInitWith c bk s) :=
  ⟨_, execInitWith_eq c bk s, .of_empty (Memory.forgetFrom_zero _) rfl rfl rfl, rfl, _, rfl⟩

theorem execAbsorb_answers {s : State} (h : s.Inv) (pay : List Byte) : s.AnsweredBy (execAbsorb pay s) := by
  obtain ⟨p', hp'⟩ := h.exists_pending
  rcases execAbsorb_cases pay s with ⟨-, he⟩ | ⟨-, hnone, -⟩ | ⟨-, p, hp, he⟩
  · rw [he]; exact .reject h _ _
  · rw [hnone] at hp'; nomatch hp'
  · rw [he]; exact .respondOk (h.feedAfter hp pay) (by simp) (by simp) _ _

theorem execFinal_answers {s : State} (h : s.Inv) : s.AnsweredBy (execFinal s) := by
  obtain ⟨p', hp'⟩ := h.exists_pending
  rcases execFinal_cases s with ⟨-, he⟩ | ⟨-, hnone, -⟩ | ⟨-, p, t, hp, rfl, he⟩
  · rw [he]; exact .reject h _ _
  · rw [hnone] at hp'; nomatch hp'
  · rw [he]; exact .respondOk (h.feedAfter hp _).consume (by simp) (by simp) _ _

theorem execCompressS_answers {s : State} (h : s.Inv) (pay : List Byte) : s.AnsweredBy (execCompressS pay s) := by
  rcases execCompressS_cases pay s with ⟨-, he⟩ | ⟨-, he⟩ <;> rw [he]
  · exact .respondOk h rfl rfl _ _
  · exact .reject h _ _

theorem execCompressU_answers {s : State} (h : s.Inv) (pay : List Byte) : s.AnsweredBy (execCompressU pay s) := by
  rcases execCompressU_cases pay s with ⟨-, he⟩ | ⟨-, he⟩ <;> rw [he]
  · exact .respondOk h rfl rfl _ _
  · exact .reject h _ _

theorem execCompressV_answers {s : State} (h : s.Inv) (n : Byte) (pay : List Byte) :
    s.AnsweredBy (execCompressV n pay s) := by
  rcases execCompressV_cases n pay s with ⟨-, he⟩ | ⟨-, he⟩ <;> rw [he]
  · exact .respondOk h rfl rfl _ _
  · exact .reject h _ _

/-- Under the invariant every command is answered, executed or rejected. -/
theorem exec_answers {s : State} (h : s.Inv) (i : Instr) : s.AnsweredBy (exec i s) := by
  cases i with
  | init bk => exact execInitWith_answers Config.hw bk s
  | absorb pay => exact execAbsorb_answers h pay
  | final => exact execFinal_answers h
  | compressS pay => exact execCompressS_answers h pay
  | compressU pay => exact execCompressU_answers h pay
  | compressV n pay => exact execCompressV_answers h n pay

/-- Under the invariant a step answers a next state that meets it again; the core waits or gives one more response. -/
theorem step_next_of_inv {s : State} (h : s.Inv) :
    ∃ t, step s = .next t ∧ t.Inv ∧ (t = s ∨ ∃ r, t.rsp = s.rsp ++ [r]) := by
  rcases step_cases s with ⟨-, he⟩ | ⟨opc, why, rest, -, he⟩ | ⟨i, rest, -, he⟩
  · exact ⟨s, he, h, .inl rfl⟩
  · exact ⟨_, he, (h.takePacket rest).reject _ _, .inr ⟨_, State.rejectPacket_rsp opc rest s⟩⟩
  · obtain ⟨t, ht, hinv, -, r, hr⟩ := exec_answers (h.takePacket rest) i
    exact ⟨t, he.trans ht, hinv, .inr ⟨r, hr⟩⟩

/-- Every step keeps the invariant. -/
theorem State.Inv.step {s t : State} (h : s.Inv) (hst : Machine.step s = .next t) : t.Inv := by
  obtain ⟨t', ht', hinv, -⟩ := step_next_of_inv h
  rw [hst] at ht'
  cases ht'
  exact hinv

/-- The invariant holds in every state that the host and the core can reach (R170, R180). -/
theorem Reachable.inv {s : State} (h : Reachable s) : s.Inv := by
  induction h with
  | reset => exact State.reset_inv
  | send s bytes _ ih => exact ih.send bytes
  | resetNow s _ _ => exact s.resetNow_inv
  | step s t _ hst ih => exact ih.step hst

end Sys2Proof.Machine

/-! ### The settled statements -/

namespace Sys2Proof.Proofs

open Sys2Proof.Machine

/-- Settles O11, bit by bit from the definition's two shifts. -/
theorem rotationMovesEveryBit : Obligations.RotationMovesEveryBit :=
  fun x => ⟨rotl_zero x, fun n hn => ⟨fun _ => rotl_toNat x n, fun _ hi => getLsbD_rotl x hn hi⟩⟩

/-- Settles O12: the two directions. -/
theorem stateImagesRoundTrip : Obligations.StateImagesRoundTrip :=
  ⟨stateDec_stateEnc, fun _ => stateEnc_stateDec⟩

/-- Settles O56: the invariant by induction over the run, then the step under the invariant. -/
theorem reachableStatesAreSound : Obligations.ReachableStatesAreSound := by
  intro s hs
  obtain ⟨t, ht, -, hrsp⟩ := step_next_of_inv hs.inv
  exact ⟨hs.inv, t, ht, hrsp⟩

/-- Settles O6: the step on a decoded command, and the decoder on a command's own packet. -/
theorem stepRunsTheDecodedCommand : Obligations.StepRunsTheDecodedCommand := by
  refine ⟨fun s i rest h => step_of_decode_command h, fun s i rest hwf hcmd => step_of_decode_command ?_⟩
  rw [hcmd, decode, decodeWith_encode_append hwf]

end Sys2Proof.Proofs
end

section
/-!
PROOFS of the family "state": the rounds of a compression on every backend, what each command can answer in each state,
and from these what a command writes, when it stops, and what no response depends on.
-/

namespace Sys2Proof.Machine

/-! ### The rounds of a compression (R99, R112 to R117) -/

/-- The unrolled backend's table holds the rotated round constants (R91). -/
theorem ttabAt_eq : ∀ j < 64, ttabAt j = rotl (tConst j) (j % 32) := by decide

/-- The first-band body is the round of the first band. -/
theorem roundLowBand_eq {j : Nat} (hj : j < 16) : roundLowBand j = round j := by
  funext r wj w1j
  simp only [roundLowBand, round, roundWires, ff, gg, if_pos hj, ttabAt_eq j (by omega)]

/-- The second-band body is the round of the second band. -/
theorem roundHighBand_eq {j : Nat} (hlo : 16 ≤ j) (hhi : j < 64) : roundHighBand j = round j := by
  funext r wj w1j
  simp only [roundHighBand, round, roundWires, ff, gg, if_neg (Nat.not_lt.2 hlo), ttabAt_eq j hhi]

/-- Two bodies that agree on the rounds run do the same to a lane. -/
theorem Lane.after_congr {f g : Nat → Regs → Word → Word → Regs} (n : Nat) {j : Nat} (l : Lane)
    (h : ∀ k, j ≤ k → k < j + n → f k = g k) : Lane.after f j n l = Lane.after g j n l := by
  induction n generalizing j l with
  | zero => rfl
  | succ n ih =>
    simp only [Lane.after, h j (by omega) (by omega)]
    exact ih _ fun k hlo hhi => h k (by omega) (by omega)

/-- `m` rounds and then `n` more are `m + n` rounds. -/
theorem Lane.after_add (f : Nat → Regs → Word → Word → Regs) (m n j : Nat) (l : Lane) :
    Lane.after f (j + m) n (Lane.after f j m l) = Lane.after f j (m + n) l := by
  induction m generalizing j l with
  | zero => rw [Nat.zero_add]; rfl
  | succ m ih => rw [Nat.add_right_comm m 1 n, ← Nat.add_assoc, Nat.add_right_comm j m 1]; exact ih _ _

/-- Rounds write A..H and nothing else of a lane (R52). -/
theorem Lane.after_frame (f : Nat → Regs → Word → Word → Regs) (j n : Nat) (l : Lane) :
    (Lane.after f j n l).lv = l.lv ∧ (Lane.after f j n l).lb = l.lb ∧
    (Lane.after f j n l).w = l.w ∧ (Lane.after f j n l).w1 = l.w1 := by
  induction n generalizing j l with
  | zero => exact ⟨rfl, rfl, rfl, rfl⟩
  | succ n ih => exact ih _ _

/-- The unrolled backend's 16 and 48 bodies are the 64 rounds (R114). -/
theorem Lane.after_bands (l : Lane) :
    Lane.after roundHighBand 16 48 (Lane.after roundLowBand 0 16 l) = Lane.after round 0 64 l := by
  rw [Lane.after_congr 48 _ fun k hlo hhi => roundHighBand_eq hlo hhi,
    Lane.after_congr 16 l fun k _ hhi => roundLowBand_eq (by omega)]
  exact Lane.after_add round 16 48 0 l

/-- Every backend runs rounds 0 to 63 on each lane and ends at j = 64. -/
theorem Compression.run_load (bk : Backend) (recs : List (Chain × Block)) :
    (Compression.load recs).run bk =
      { lanes := (Compression.load recs).lanes.map (Lane.after round 0 64), j := ⟨64, by decide⟩ } := by
  have hstart : (Compression.load recs).j.val = 0 := rfl
  have hsame := (Compression.load recs).repeatRounds_eq round 64 (by omega)
  cases bk with
  | scalar => exact hsame
  | vector => exact hsame
  | unrolled =>
    change ((Compression.load recs).repeatRounds roundLowBand 16).repeatRounds roundHighBand 48 = _
    rw [Compression.repeatRounds_eq roundLowBand 16 _ (by omega),
      Compression.repeatRounds_eq roundHighBand 48 _ (by simp [hstart]), Compression.mk.injEq, List.map_map]
    exact ⟨List.map_congr_left fun l _ => l.after_bands, rfl⟩

theorem Compression.run_load_lanes (bk : Backend) (recs : List (Chain × Block)) :
    ((Compression.load recs).run bk).lanes = recs.map fun r => Lane.after round 0 64 (Lane.load r.1 r.2) := by
  rw [Compression.run_load]
  exact List.map_map

/-! ### BKSEL (R26) -/

/-- The state with another backend selected. -/
def State.selectBackend (bk : Backend) (s : State) : State := { s with bksel := bk }

/-- V after a block is the same on every backend. -/
theorem State.compressBlock_selectBackend (bk : Backend) (b : Block) (s : State) :
    (s.selectBackend bk).compressBlock b = (s.compressBlock b).selectBackend bk := by
  have hrun : (Compression.load [(s.v, b)]).run bk = (Compression.load [(s.v, b)]).run s.bksel := by
    rw [Compression.run_load bk, Compression.run_load s.bksel]
  simp only [State.compressBlock, State.compress_eq, State.selectBackend, hrun]

theorem State.compressBlocks_selectBackend (bk : Backend) (q : Nat) (data : List Byte) (s : State) :
    (s.selectBackend bk).compressBlocks q data = (s.compressBlocks q data).selectBackend bk := by
  induction q generalizing data s with
  | zero => rfl
  | succ q ih => rw [State.compressBlocks, State.compressBlock_selectBackend, ih]; rfl

/-- Feed does the same on every backend, and keeps BKSEL. -/
theorem State.feedAfter_selectBackend (bk : Backend) (p data : List Byte) (s : State) :
    (s.selectBackend bk).feedAfter p data = (s.feedAfter p data).selectBackend bk := by
  rw [State.feedAfter, State.compressBlocks_selectBackend]; rfl

/-! ### The operations behind INIT, ABSORB and FINAL -/

/-- INIT's next state: the fresh context on backend `bk` (R126). -/
def State.started (bk : Backend) (s : State) : State :=
  (State.setFill 0 { s with v := Config.hw.iv, nbits := 0#64, bksel := bk }).activate.respondOk 0x01#8 []

theorem exec_init (bk : Backend) (s : State) : exec (.init bk) s = .next (s.started bk) := rfl

/-- INIT leaves no byte in BUF. -/
@[simp] theorem State.started_buf (bk : Backend) (s : State) : (s.started bk).buf = [] := Memory.forgetFrom_zero _

/-- Nothing of the old state but the ports shows in INIT's next state. -/
theorem State.started_eq_of_ports {s s' : State} (bk : Backend) (hcmd : s.cmd = s'.cmd) (hrsp : s.rsp = s'.rsp) :
    s.started bk = s'.started bk := by
  simp [State.started, State.setFill, State.activate, State.respondOk, State.respond, hcmd, hrsp]

/-- ABSORB's next state on the pending bytes `p` (R127). -/
def State.absorbed (p pay : List Byte) (s : State) : State :=
  (State.feedAfter p pay (s.countBytes pay.length)).respondOk 0x02#8 []

/-- The padding counted and fed on the pending bytes `p`: the state FINAL reads the digest from (R132). -/
def State.padded (p : List Byte) (s : State) : State :=
  State.feedAfter p (padBytes s.idx.val s.nbits) (s.countBytes (padBytes s.idx.val s.nbits).length)

/-- FINAL's next state on the pending bytes `p` (R132). -/
def State.finished (p : List Byte) (s : State) : State :=
  (s.padded p).consume.respondOk 0x03#8 (stateEnc (s.padded p).v)

@[simp] theorem State.feedAfter_st (p data : List Byte) (s : State) : (s.feedAfter p data).st = s.st := by
  simp [State.feedAfter]

@[simp] theorem State.feedAfter_bksel (p data : List Byte) (s : State) : (s.feedAfter p data).bksel = s.bksel := by
  simp [State.feedAfter]

theorem State.absorbed_st (p pay : List Byte) (s : State) : (s.absorbed p pay).st = s.st := by
  simp [State.absorbed]

theorem State.absorbed_bksel (p pay : List Byte) (s : State) : (s.absorbed p pay).bksel = s.bksel := by
  simp [State.absorbed]

theorem State.absorbed_cmd (p pay : List Byte) (s : State) : (s.absorbed p pay).cmd = s.cmd := by
  simp [State.absorbed]

theorem State.absorbed_rsp (p pay : List Byte) (s : State) :
    (s.absorbed p pay).rsp = s.rsp ++ [rspPacket 0x00#8 0x02#8 []] := by
  simp [State.absorbed]

theorem State.finished_bksel (p : List Byte) (s : State) : (s.finished p).bksel = s.bksel := by
  simp [State.finished, State.padded]

theorem State.finished_cmd (p : List Byte) (s : State) : (s.finished p).cmd = s.cmd := by
  simp [State.finished, State.padded]

theorem State.finished_rsp (p : List Byte) (s : State) :
    (s.finished p).rsp = s.rsp ++ [rspPacket 0x00#8 0x03#8 (stateEnc (s.padded p).v)] := by
  simp [State.finished, State.padded]

theorem State.absorbed_selectBackend (bk : Backend) (p pay : List Byte) (s : State) :
    (s.selectBackend bk).absorbed p pay = (s.absorbed p pay).selectBackend bk :=
  congrArg (State.respondOk 0x02#8 []) (State.feedAfter_selectBackend bk p pay (s.countBytes pay.length))

theorem State.padded_selectBackend (bk : Backend) (p : List Byte) (s : State) :
    (s.selectBackend bk).padded p = (s.padded p).selectBackend bk :=
  State.feedAfter_selectBackend bk p _ (s.countBytes (padBytes s.idx.val s.nbits).length)

theorem State.finished_selectBackend (bk : Backend) (p : List Byte) (s : State) :
    (s.selectBackend bk).finished p = (s.finished p).selectBackend bk := by
  rw [State.finished, State.padded_selectBackend]; rfl

/-! ### ABSORB and FINAL by ST and the pending bytes (R127, R132) -/

theorem exec_absorb_of_terminal {s : State} (pay : List Byte) (h : s.st = .terminal) :
    exec (.absorb pay) s = .next (s.reject .invalidState 0x02#8) := by
  simp only [exec, execAbsorb, h]

theorem exec_final_of_terminal {s : State} (h : s.st = .terminal) :
    exec .final s = .next (s.reject .invalidState 0x03#8) := by
  simp only [exec, execFinal, h]

theorem exec_absorb_of_pending {s : State} {p : List Byte} (pay : List Byte) (h : s.st = .active) (hp : s.pending = some p) :
    exec (.absorb pay) s = .next (s.absorbed p pay) := by
  rcases execAbsorb_cases pay s with ⟨hst, -⟩ | ⟨-, hp', -⟩ | ⟨-, p', hp', he⟩
  · rw [h] at hst; nomatch hst
  · rw [hp] at hp'; nomatch hp'
  · rw [hp] at hp'; cases hp'; exact he

theorem exec_final_of_pending {s : State} {p : List Byte} (h : s.st = .active) (hp : s.pending = some p) :
    exec .final s = .next (s.finished p) := by
  rcases execFinal_cases s with ⟨hst, -⟩ | ⟨-, hp', -⟩ | ⟨-, p', t, hp', rfl, he⟩
  · rw [h] at hst; nomatch hst
  · rw [hp] at hp'; nomatch hp'
  · rw [hp] at hp'; cases hp'; exact he

/-! ### All a command can do -/

/-- The command reads BUF in this state: ABSORB or FINAL while ST = ACTIVE. -/
def FeedsIn (i : Instr) (s : State) : Prop := ((∃ pay, i = .absorb pay) ∨ i = .final) ∧ s.st = .active

theorem not_feedsIn_of_terminal {i : Instr} {s : State} (h : s.st = .terminal) : ¬ FeedsIn i s := by
  rintro ⟨-, hst⟩
  rw [h] at hst
  nomatch hst

/-- A meaning that executes or rejects by its operands alone gives one and the same response in every state. -/
theorem exists_response_of_operand_check {P Q : Prop} {meaning : State → Host.Outcome State Fault Refusal} {f : Rejection}
    {opc : Byte} {pl : List Byte} (hexcl : P → ¬ Q)
    (hcases : ∀ s, (P ∧ meaning s = .next (s.respondOk opc pl)) ∨ (Q ∧ meaning s = .next (s.reject f opc))) :
    ∃ status pl', ∀ s : State, meaning s = .next (s.respond status opc pl') := by
  by_cases hP : P
  · exact ⟨0x00#8, pl, fun s => (hcases s).elim And.right fun h => absurd h.1 (hexcl hP)⟩
  · exact ⟨f.code, [], fun s => (hcases s).elim (fun h => absurd h.1 hP) And.right⟩

/-- Where a command neither starts a hash nor feeds one, it only responds, and its response is a function of the command
alone. -/
theorem exec_responds {i : Instr} (hinit : ∀ bk, i ≠ .init bk) :
    ∃ status pl, ∀ s, ¬ FeedsIn i s → exec i s = .next (s.respond status i.opcode pl) := by
  have hterminal {s : State} (h : s.st ≠ .active) : s.st = .terminal := by
    cases hst : s.st with
    | terminal => rfl
    | active => exact absurd hst h
  cases i with
  | init bk => exact absurd rfl (hinit bk)
  | absorb pay =>
    exact ⟨0x01#8, [], fun s h => exec_absorb_of_terminal pay (hterminal fun hst => h ⟨.inl ⟨pay, rfl⟩, hst⟩)⟩
  | final => exact ⟨0x01#8, [], fun s h => exec_final_of_terminal (hterminal fun hst => h ⟨.inr rfl, hst⟩)⟩
  | compressS pay =>
    obtain ⟨status, pl, h⟩ := exists_response_of_operand_check (fun hP hQ => hQ hP) (execCompressS_cases pay)
    exact ⟨status, pl, fun s _ => h s⟩
  | compressU pay =>
    obtain ⟨status, pl, h⟩ := exists_response_of_operand_check (fun hP hQ => hQ hP) (execCompressU_cases pay)
    exact ⟨status, pl, fun s _ => h s⟩
  | compressV n pay =>
    obtain ⟨status, pl, h⟩ := exists_response_of_operand_check (by simp) (execCompressV_cases n pay)
    exact ⟨status, pl, fun s _ => h s⟩

/-- All the outcomes of a command; `exec_case` ties it to `exec`. -/
inductive ExecCase : Instr → State → Host.Outcome State Fault Refusal → Prop where
  /-- INIT starts a hash. -/
  | starts (bk : Backend) (s : State) : ExecCase (.init bk) s (.next (s.started bk))
  /-- The command only responds, a COMPRESS or any rejected command, and so in every state where it feeds nothing. -/
  | responds {i : Instr} {s : State} (status : Byte) (pl : List Byte) (hinit : ∀ bk, i ≠ .init bk) (hfeed : ¬ FeedsIn i s)
      (halike : ∀ s', ¬ FeedsIn i s' → exec i s' = .next (s'.respond status i.opcode pl)) :
      ExecCase i s (.next (s.respond status i.opcode pl))
  /-- A pending byte that holds no value is needed. -/
  | stops {i : Instr} {s : State} (hfeed : FeedsIn i s) (hp : s.pending = none) :
      ExecCase i s (.fault .pendingByteUnspecified)
  /-- ABSORB feeds its payload. -/
  | absorbs {s : State} {p : List Byte} (pay : List Byte) (hst : s.st = .active) (hp : s.pending = some p) :
      ExecCase (.absorb pay) s (.next (s.absorbed p pay))
  /-- FINAL feeds the padding. -/
  | finishes {s : State} {p : List Byte} (hst : s.st = .active) (hp : s.pending = some p) :
      ExecCase .final s (.next (s.finished p))

theorem exec_case (i : Instr) (s : State) : ExecCase i s (exec i s) := by
  by_cases hinit : ∃ bk, i = .init bk
  · obtain ⟨bk, rfl⟩ := hinit
    exact .starts bk s
  by_cases hfeed : FeedsIn i s
  · obtain ⟨⟨pay, rfl⟩ | rfl, hst⟩ := id hfeed
    · rcases execAbsorb_cases pay s with ⟨hst', -⟩ | ⟨-, hp, he⟩ | ⟨-, p, hp, -⟩
      · exact absurd hfeed (not_feedsIn_of_terminal hst')
      · rw [exec, he]; exact .stops hfeed hp
      · rw [exec_absorb_of_pending pay hst hp]; exact .absorbs pay hst hp
    · rcases execFinal_cases s with ⟨hst', -⟩ | ⟨-, hp, he⟩ | ⟨-, p, t, hp, -⟩
      · exact absurd hfeed (not_feedsIn_of_terminal hst')
      · rw [exec, he]; exact .stops hfeed hp
      · rw [exec_final_of_pending hst hp]; exact .finishes hst hp
  · obtain ⟨status, pl, hr⟩ := exec_responds (not_exists.1 hinit)
    rw [hr s hfeed]
    exact .responds status pl (not_exists.1 hinit) hfeed hr

/-! ### States alike to the host (R35, R132) -/

theorem SameToHost.cmd_eq {s s' : State} (h : SameToHost s s') : s.cmd = s'.cmd := by
  rcases h with rfl | ⟨-, -, hcmd, -⟩
  · rfl
  · exact hcmd

theorem SameToHost.rsp_eq {s s' : State} (h : SameToHost s s') : s.rsp = s'.rsp := by
  rcases h with rfl | ⟨-, -, -, hrsp⟩
  · rfl
  · exact hrsp

theorem SameToHost.takePacket {s s' : State} (h : SameToHost s s') (rest : List Byte) :
    SameToHost (s.takePacket rest) (s'.takePacket rest) := by
  rcases h with rfl | ⟨hst, hst', -, hrsp⟩
  · exact .inl rfl
  · exact .inr ⟨hst, hst', rfl, hrsp⟩

theorem SameToHost.respond {s s' : State} (h : SameToHost s s') (status opc : Byte) (pl : List Byte) :
    SameToHost (s.respond status opc pl) (s'.respond status opc pl) := by
  rcases h with rfl | ⟨hst, hst', hcmd, hrsp⟩
  · exact .inl rfl
  · exact .inr ⟨hst, hst', hcmd, by simp [hrsp]⟩

/-- A command keeps two states alike: in TERMINAL, INIT erases what they differ in and every other command only
responds. -/
theorem exec_sameToHost {i : Instr} {s s' t : State} (h : SameToHost s s') (ht : exec i s = .next t) :
    ∃ t', exec i s' = .next t' ∧ SameToHost t t' := by
  rcases id h with rfl | ⟨hst, hst', hcmd, hrsp⟩
  · exact ⟨t, ht, .inl rfl⟩
  by_cases hinit : ∃ bk, i = .init bk
  · obtain ⟨bk, rfl⟩ := hinit
    cases ht
    exact ⟨_, exec_init bk s', .inl (State.started_eq_of_ports bk hcmd hrsp)⟩
  · obtain ⟨status, pl, hr⟩ := exec_responds (not_exists.1 hinit)
    rw [hr s (not_feedsIn_of_terminal hst)] at ht
    cases ht
    exact ⟨_, hr s' (not_feedsIn_of_terminal hst'), h.respond _ _ _⟩

theorem execAll_sameToHost {is : List Instr} {s s' t : State} (h : SameToHost s s') (ht : execAll is s = .next t) :
    ∃ t', execAll is s' = .next t' ∧ SameToHost t t' := by
  induction is generalizing s s' with
  | nil => cases ht; exact ⟨s', rfl, h⟩
  | cons i is ih =>
    cases hi : exec i s with
    | next u =>
      simp only [execAll, hi] at ht
      obtain ⟨u', hu', hsame⟩ := exec_sameToHost h hi
      obtain ⟨t', ht', hsame'⟩ := ih hsame ht
      exact ⟨t', by simp only [execAll, hu', ht'], hsame'⟩
    | fault r => simp only [execAll, hi, reduceCtorEq] at ht
    | refused r => simp only [execAll, hi, reduceCtorEq] at ht

/-- A step keeps two states alike: equal command ports decode alike. -/
theorem step_sameToHost {s s' t : State} (h : SameToHost s s') (ht : step s = .next t) :
    ∃ t', step s' = .next t' ∧ SameToHost t t' := by
  have hcmd := h.cmd_eq
  rcases step_cases s with ⟨hd, he⟩ | ⟨opc, why, rest, hd, he⟩ | ⟨i, rest, hd, he⟩ <;>
    rw [he] at ht <;> rw [hcmd] at hd
  · cases ht
    exact ⟨s', by simp only [step, hd], h⟩
  · cases ht
    exact ⟨s'.rejectPacket opc rest, by simp only [step, hd], (h.takePacket rest).respond _ _ _⟩
  · rw [step_of_decode_command hd]
    exact exec_sameToHost (h.takePacket rest) ht

/-! ### No response depends on BKSEL (R26, R111, R122) -/

/-- Selecting another backend before a command changes the next state in BKSEL alone. -/
theorem exec_selectBackend {i : Instr} {s t : State} (h : exec i s = .next t) (bk : Backend) :
    ∃ bk', exec i (s.selectBackend bk) = .next (t.selectBackend bk') := by
  have hcase := exec_case i s
  rw [h] at hcase
  cases hcase with
  | starts bk₀ => exact ⟨bk₀, rfl⟩
  | responds status pl hinit hfeed halike => exact ⟨bk, halike (s.selectBackend bk) hfeed⟩
  | @absorbs _ p pay hst hp =>
    exact ⟨bk, by rw [← State.absorbed_selectBackend]; exact exec_absorb_of_pending pay hst hp⟩
  | @finishes _ p hst hp =>
    exact ⟨bk, by rw [← State.finished_selectBackend]; exact exec_final_of_pending hst hp⟩

end Sys2Proof.Machine

/-! ### The settled statements -/

namespace Sys2Proof.Proofs

open Sys2Proof.Machine

/-- Settles O48: the three backends run the same rounds, and nothing else reads BKSEL. -/
theorem noResponseDependsOnTheBackend : Obligations.NoResponseDependsOnTheBackend :=
  fun _ _ _ bk h => exec_selectBackend h bk

/-- Settles O53. -/
theorem stepKeepsTheInvariant : Obligations.StepKeepsTheInvariant := fun _ _ hinv hstep => hinv.step hstep

/-- Settles O58. -/
theorem stepKeepsStatesAlikeToTheHost : Obligations.StepKeepsStatesAlikeToTheHost := fun _ _ _ => step_sameToHost

/-- Settles O24: every backend runs rounds 0 to 63, and a round writes A..H alone. -/
theorem compressionEndsAfterSixtyFourRounds : Obligations.CompressionEndsAfterSixtyFourRounds := by
  intro bk recs
  refine ⟨rfl, by rw [Compression.run_load], ?_, fun l hl => ?_⟩
  · rw [Compression.run_load_lanes, List.map_map]
    refine (List.map_congr_left fun r _ => ?_).trans (List.map_id recs)
    obtain ⟨hlv, hlb, -, -⟩ := Lane.after_frame round 0 64 (Lane.load r.1 r.2)
    exact Prod.ext hlv hlb
  · rw [Compression.run_load_lanes] at hl
    obtain ⟨r, -, rfl⟩ := List.mem_map.1 hl
    obtain ⟨-, hlb, hw, hw1⟩ := Lane.after_frame round 0 64 (Lane.load r.1 r.2)
    rw [hlb, hw, hw1]
    exact ⟨rfl, rfl⟩

/-- Settles O49: the two states are alike to the host, and every command keeps them so. -/
theorem terminalContextIsInvisible : Obligations.TerminalContextIsInvisible := by
  intro is s s' t hst hst' hcmd hrsp ht
  obtain ⟨t', ht', hsame⟩ := execAll_sameToHost (.inr ⟨hst, hst', hcmd, hrsp⟩) ht
  exact ⟨t', ht', hsame.rsp_eq.symm, hsame.cmd_eq.symm⟩

/-- Settles O50, case by case of what a command can do. -/
theorem onlyTheListedCommandsWriteEachRegister : Obligations.OnlyTheListedCommandsWriteEachRegister := by
  intro i s t h
  have hcase := exec_case i s
  rw [h] at hcase
  cases hcase with
  | starts bk =>
    have hinit : ¬ ∀ bk', Instr.init bk ≠ .init bk' := fun h => h bk rfl
    exact ⟨fun h => absurd h hinit, fun h => absurd h hinit, fun h => absurd h hinit,
      fun _ _ a b hb => by simp at hb, rfl, rfl, _, rfl⟩
  | responds status pl hinit hfeed =>
    exact ⟨fun _ => rfl, fun _ _ => rfl, fun _ _ _ => ⟨rfl, rfl, rfl, rfl⟩, fun bk h => absurd h (hinit bk),
      rfl, rfl, _, rfl⟩
  | @absorbs _ p pay hst hp =>
    exact ⟨fun _ => s.absorbed_bksel p pay, fun _ _ => s.absorbed_st p pay, fun _ _ h => absurd rfl (h pay), nofun,
      s.absorbed_cmd p pay, rfl, _, s.absorbed_rsp p pay⟩
  | @finishes _ p hst hp =>
    exact ⟨fun _ => s.finished_bksel p, fun _ h => absurd rfl h, fun _ h => absurd rfl h, nofun,
      s.finished_cmd p, rfl, _, s.finished_rsp p⟩

/-- Settles O54, case by case of what a command can do. -/
theorem onlyAnUnspecifiedPendingByteStopsACommand : Obligations.OnlyAnUnspecifiedPendingByteStopsACommand := by
  intro i s
  have hcase := exec_case i s
  generalize exec i s = o at hcase
  cases hcase with
  | starts bk => exact .inr ⟨by simp, _, rfl⟩
  | responds status pl hinit hfeed => exact .inr ⟨fun ⟨hi, hst, _⟩ => hfeed ⟨hi, hst⟩, _, rfl⟩
  | stops hfeed hp => exact .inl ⟨hfeed.1, hfeed.2, hp, rfl⟩
  | absorbs pay hst hp => exact .inr ⟨fun ⟨_, _, hnone⟩ => Option.some_ne_none _ (hp.symm.trans hnone), _, rfl⟩
  | finishes hst hp => exact .inr ⟨fun ⟨_, _, hnone⟩ => Option.some_ne_none _ (hp.symm.trans hnone), _, rfl⟩

/-- Settles O51: the reset fields, and the rejection in TERMINAL. -/
theorem resetLeavesNoContext : Obligations.ResetLeavesNoContext :=
  ⟨rfl, rfl, rfl, fun _ => ⟨rfl, rfl, rfl, fun pay =>
    ⟨⟨_, exec_absorb_of_terminal pay rfl, rfl⟩, ⟨_, exec_final_of_terminal rfl, rfl⟩⟩⟩⟩

/-- Settles O52. -/
theorem resetMeetsTheInvariant : Obligations.ResetMeetsTheInvariant := State.reset_inv

end Sys2Proof.Proofs
end

section
/-!
PROOFS of the family "encoding": the decoder and R67's list, the answer to every whole packet, the expansion of HASH, and
the lines of text.
-/

namespace Sys2Proof

open Machine

/-! ### The opcode map and the illegal encodings (R58, R66, R67) -/

/-- The command is well-formed and its packet has these fields. -/
structure Instr.HasFields (c : Config) (opc arg : Byte) (pay : List Byte) (i : Instr) : Prop where
  wf : i.wf c = true
  opcode : i.opcode = opc
  arg : i.arg = arg
  payload : i.payload = pay

/-- Six zero bits, and two bits that are not 3, are a backend's number (R26, R60). -/
theorem exists_backendCode_of_bits {arg : Byte} (hhigh : arg.extractLsb' 2 6 = 0#6) (hlow : arg.extractLsb' 0 2 ≠ 3#2) :
    ∃ bk, backendCode bk = arg := by
  have hcode : ∀ b : Byte, b.extractLsb' 2 6 = 0#6 → b.extractLsb' 0 2 ≠ 3#2 → b = 0#8 ∨ b = 1#8 ∨ b = 2#8 := by decide
  rcases hcode arg hhigh hlow with rfl | rfl | rfl
  · exact ⟨.scalar, rfl⟩
  · exact ⟨.unrolled, rfl⟩
  · exact ⟨.vector, rfl⟩

theorem Instr.wf_compressV_iff {c : Config} {n : Byte} {pay : List Byte} :
    Instr.wf c (.compressV n pay) = true ↔ 1 ≤ n.toNat ∧ n.toNat ≤ c.nlanes ∧ pay.length = recordLen * n.toNat := by
  simp [Instr.wf, and_assoc]

/-- The lower bound of N, as R65 and as R67 write it. -/
theorem one_le_toNat_iff {n : Byte} : 1 ≤ n.toNat ↔ n ≠ 0#8 := by bv_omega

/-- A well-formed command's header is in none of R67's six items. -/
theorem not_illegalHeader_of_hasFields {c : Config} {opc arg : Byte} {pay : List Byte} {i : Instr}
    (h : i.HasFields c opc arg pay) : ¬ IllegalHeader c opc arg pay.length := by
  obtain ⟨hwf, rfl, rfl, rfl⟩ := h
  cases i with
  | init bk => cases bk <;> simp [IllegalHeader, Instr.opcode, Instr.arg, Instr.payload, backendCode]
  | absorb pay => simp [IllegalHeader, Instr.opcode, Instr.arg]
  | final => simp [IllegalHeader, Instr.opcode, Instr.arg, Instr.payload]
  | compressS pay => simpa [IllegalHeader, Instr.opcode, Instr.arg, Instr.payload, Instr.wf] using hwf
  | compressU pay => simpa [IllegalHeader, Instr.opcode, Instr.arg, Instr.payload, Instr.wf] using hwf
  | compressV n pay =>
    obtain ⟨hpos, hle, hlen⟩ := Instr.wf_compressV_iff.1 hwf
    simp [IllegalHeader, Instr.opcode, Instr.arg, Instr.payload, one_le_toNat_iff.1 hpos, hle, hlen]

/-- A header in none of R67's six items is a well-formed command's. -/
theorem exists_hasFields_of_not_illegalHeader {c : Config} {opc arg : Byte} {pay : List Byte} (hmax : pay.length ≤ maxLen)
    (h : ¬ IllegalHeader c opc arg pay.length) : ∃ i : Instr, i.HasFields c opc arg pay := by
  simp only [IllegalHeader, not_or, not_and_or, not_not] at h
  obtain ⟨hopc, hinit, habsorb, hfinal, hrecord, hlanes⟩ := h
  simp only [List.mem_cons, List.not_mem_nil, or_false] at hopc
  rcases hopc with rfl | rfl | rfl | rfl | rfl | rfl
  · obtain ⟨hhigh, hlow, hlen⟩ := hinit.resolve_left (by simp)
    obtain ⟨bk, hbk⟩ := exists_backendCode_of_bits hhigh hlow
    exact ⟨.init bk, rfl, rfl, hbk, (List.length_eq_zero_iff.1 hlen).symm⟩
  · exact ⟨.absorb pay, decide_eq_true hmax, rfl, (habsorb.resolve_left (by simp)).symm, rfl⟩
  · obtain ⟨harg, hlen⟩ := hfinal.resolve_left (by simp)
    exact ⟨.final, rfl, rfl, harg.symm, (List.length_eq_zero_iff.1 hlen).symm⟩
  · obtain ⟨harg, hlen⟩ := hrecord.resolve_left (by simp)
    exact ⟨.compressS pay, decide_eq_true hlen, rfl, harg.symm, rfl⟩
  · obtain ⟨harg, hlen⟩ := hrecord.resolve_left (by simp)
    exact ⟨.compressU pay, decide_eq_true hlen, rfl, harg.symm, rfl⟩
  · obtain ⟨harg, hle, hlen⟩ := hlanes.resolve_left (by simp)
    exact ⟨.compressV arg pay, Instr.wf_compressV_iff.2 ⟨one_le_toNat_iff.2 harg, Nat.le_of_not_lt hle, hlen⟩, rfl, rfl, rfl⟩

/-! What each operand check accepts. -/

/-- In each of the three accepted cases ARG is its two low bits. -/
theorem decodeInit_hasFields {c : Config} {arg : Byte} {pay : List Byte} {i : Instr} (h : decodeInit arg pay = .ok i) :
    i.HasFields c 0x01#8 arg pay := by
  have hsmall : ∀ b : Byte, b.extractLsb' 2 6 = 0#6 → BitVec.setWidth 8 (b.extractLsb' 0 2) = b := by decide
  simp only [decodeInit, ne_eq] at h
  split_ifs at h with hhigh hpay hbk hbk hbk <;> cases h <;>
    exact ⟨rfl, rfl, by rw [← hsmall arg hhigh, hbk]; rfl, hpay.symm⟩

theorem decodeAbsorb_hasFields {c : Config} {arg : Byte} {pay : List Byte} {i : Instr} (hmax : pay.length ≤ maxLen)
    (h : decodeAbsorb arg pay = .ok i) : i.HasFields c 0x02#8 arg pay := by
  simp only [decodeAbsorb, ne_eq] at h
  split_ifs at h with harg
  cases h
  exact ⟨decide_eq_true hmax, rfl, harg.symm, rfl⟩

theorem decodeFinal_hasFields {c : Config} {arg : Byte} {pay : List Byte} {i : Instr} (h : decodeFinal arg pay = .ok i) :
    i.HasFields c 0x03#8 arg pay := by
  simp only [decodeFinal, ne_eq] at h
  split_ifs at h with harg hpay
  cases h
  exact ⟨rfl, rfl, harg.symm, hpay.symm⟩

theorem decodeCompressS_hasFields {c : Config} {arg : Byte} {pay : List Byte} {i : Instr}
    (h : decodeCompressS arg pay = .ok i) : i.HasFields c 0x10#8 arg pay := by
  simp only [decodeCompressS, ne_eq] at h
  split_ifs at h with harg hlen
  cases h
  exact ⟨decide_eq_true hlen, rfl, harg.symm, rfl⟩

theorem decodeCompressU_hasFields {c : Config} {arg : Byte} {pay : List Byte} {i : Instr}
    (h : decodeCompressU arg pay = .ok i) : i.HasFields c 0x11#8 arg pay := by
  simp only [decodeCompressU, ne_eq] at h
  split_ifs at h with harg hlen
  cases h
  exact ⟨decide_eq_true hlen, rfl, harg.symm, rfl⟩

theorem decodeCompressV_hasFields {c : Config} {arg : Byte} {pay : List Byte} {i : Instr}
    (h : decodeCompressV c arg pay = .ok i) : i.HasFields c 0x12#8 arg pay := by
  simp only [decodeCompressV, ne_eq] at h
  split_ifs at h with harg hle hlen
  cases h
  exact ⟨Instr.wf_compressV_iff.2 ⟨one_le_toNat_iff.2 harg, Nat.le_of_not_lt hle, hlen⟩, rfl, rfl, rfl⟩

/-- What the opcode map accepts is a well-formed command with the packet's fields: the converse of `decodePacket_of_wf`. -/
theorem decodePacket_hasFields {c : Config} {opc arg : Byte} {pay : List Byte} {i : Instr} (hmax : pay.length ≤ maxLen)
    (h : decodePacket c opc arg pay = .ok i) : i.HasFields c opc arg pay := by
  simp only [decodePacket] at h
  split_ifs at h with h1 h2 h3 h4 h5 h6 <;> subst opc
  · exact decodeInit_hasFields h
  · exact decodeAbsorb_hasFields hmax h
  · exact decodeFinal_hasFields h
  · exact decodeCompressS_hasFields h
  · exact decodeCompressU_hasFields h
  · exact decodeCompressV_hasFields h

/-! ### Whole packets on the command port (R55, R56, R69) -/

/-- A header word is its three fields. -/
theorem hdr_fields (hdr : Word) : hdrOpc hdr ++ hdrArg hdr ++ hdr.extractLsb' 0 16 = hdr := by
  rw [hdrOpc, hdrArg, BitVec.extractLsb'_append_extractLsb'_eq_extractLsb' (show 24 = 16 + 8 from rfl),
    BitVec.extractLsb'_append_extractLsb'_eq_extractLsb' (show 16 = 0 + 16 from rfl), BitVec.extractLsb'_eq_self]

/-- LEN counts at most MAXLEN bytes. -/
theorem hdrLen_le (hdr : Word) : hdrLen hdr ≤ maxLen := Nat.le_of_lt_succ (hdr.extractLsb' 0 16).isLt

/-- Every header and as many bytes as its LEN are a packet of its fields. -/
theorem packet_of_hdr (hdr : Word) (pay : List Byte) :
    packet (hdrOpc hdr) (hdrArg hdr) (hdr.extractLsb' 0 16) pay = be32enc hdr ++ pay := by
  rw [packet, hdr_fields]

/-- The decoder on a whole packet in R67's list. -/
theorem decodeWith_of_illegalHeader {c : Config} {opc arg : Byte} {len : BitVec 16} {pay : List Byte} (rest : List Byte)
    (hlen : pay.length = len.toNat) (h : IllegalHeader c opc arg len.toNat) :
    ∃ why, decodeWith c (packet opc arg len pay ++ rest) = .illegal opc why rest := by
  have hmax : pay.length ≤ maxLen := hlen ▸ Nat.le_of_lt_succ len.isLt
  rw [packet, List.append_assoc, decodeWith_packet c _ _ _ _ _ hlen]
  cases hd : decodePacket c opc arg pay with
  | error why => exact ⟨why, rfl⟩
  | ok i => exact absurd (hlen ▸ h) (not_illegalHeader_of_hasFields (decodePacket_hasFields hmax hd))

/-- The decoder on a whole packet that R67 does not list. -/
theorem decodeWith_of_legalHeader {c : Config} {opc arg : Byte} {len : BitVec 16} {pay : List Byte} (rest : List Byte)
    (hlen : pay.length = len.toNat) (h : ¬ IllegalHeader c opc arg len.toNat) :
    ∃ i : Instr, decodeWith c (packet opc arg len pay ++ rest) = .command i rest ∧ i.HasFields c opc arg pay := by
  have hmax : pay.length ≤ maxLen := hlen ▸ Nat.le_of_lt_succ len.isLt
  obtain ⟨i, hi⟩ := exists_hasFields_of_not_illegalHeader hmax (hlen ▸ h)
  refine ⟨i, ?_, hi⟩
  obtain ⟨hwf, rfl, rfl, rfl⟩ := hi
  rw [packet, List.append_assoc, decodeWith_packet c _ _ _ _ _ hlen, decodePacket_of_wf hwf]

/-- Four bytes or more begin with a header word. -/
theorem exists_hdr_of_length {bytes : List Byte} (h : 4 ≤ bytes.length) :
    ∃ hdr tail, bytes = be32enc hdr ++ tail := by
  match bytes, h with
  | b0 :: b1 :: b2 :: b3 :: tail, _ => exact ⟨be32dec b0 b1 b2 b3, tail, by rw [be32enc_be32dec]; rfl⟩

/-- Fewer bytes than a header needs are no whole packet. -/
theorem decodeWith_of_length_lt {c : Config} {bytes : List Byte} (h : bytes.length < 4) :
    decodeWith c bytes = .incomplete := by
  match bytes, h with
  | [], _ => rfl
  | [_], _ => rfl
  | [_, _], _ => rfl
  | [_, _, _], _ => rfl

/-- A header and fewer bytes than its LEN are no whole packet. -/
theorem decodeWith_of_short_payload {c : Config} {hdr : Word} {part : List Byte} (h : part.length < hdrLen hdr) :
    decodeWith c (be32enc hdr ++ part) = .incomplete := by
  rw [decodeWith_be32enc, decodeAfter, if_pos h]

/-- What the decoder answers as a command is a whole packet: a header, its payload and the bytes left. -/
theorem exists_packet_of_decodeWith {c : Config} {bytes rest : List Byte} {i : Instr}
    (h : decodeWith c bytes = .command i rest) :
    ∃ hdr pay, bytes = be32enc hdr ++ (pay ++ rest) ∧ pay.length = hdrLen hdr ∧
      decodePacket c (hdrOpc hdr) (hdrArg hdr) pay = .ok i := by
  by_cases hbytes : bytes.length < 4
  · rw [decodeWith_of_length_lt hbytes] at h; nomatch h
  obtain ⟨hdr, tail, rfl⟩ := exists_hdr_of_length (Nat.le_of_not_lt hbytes)
  rw [decodeWith_be32enc, decodeAfter] at h
  split at h
  · nomatch h
  · next hlen =>
    split at h
    · next i' hd =>
      cases h
      exact ⟨hdr, tail.take (hdrLen hdr), by rw [List.take_append_drop], List.length_take_of_le (by omega), hd⟩
    · nomatch h

end Sys2Proof

namespace Sys2Proof.Machine

/-! ### What a compression answers (R100, R111, R116) -/

/-- The registers after `n` rounds are those rounds on the registers, each on its own schedule words. -/
theorem Lane.after_regs (f : Nat → Regs → Word → Word → Regs) (j n : Nat) (l : Lane) :
    (Lane.after f j n l).regs =
      (List.range' j n).foldl (fun r k => f k r (l.w.toList.getD k 0) (l.w1.toList.getD k 0)) l.regs := by
  induction n generalizing j l with
  | zero => rfl
  | succ n ih => rw [Lane.after, ih, List.range'_succ, List.foldl_cons]

/-- The 64 rounds of a loaded lane are those of CF. -/
theorem Lane.after_load_regs (v : Chain) (b : Block) :
    (Lane.after round 0 64 (Lane.load v b)).regs = rounds64 (expand b) (seed v) := by
  rw [Lane.after_regs, ← List.range_eq_range', ← List.map_coe_finRange_eq_range, List.foldl_map, rounds64]
  refine List.foldl_ext _ _ _ fun r k _ => ?_
  have hw : k.val < 68 := Nat.lt_of_lt_of_le k.isLt (by decide)
  simp [Lane.load, List.getD_eq_getElem?_getD, hw]

/-- On every backend each lane answers CF of its own record. -/
theorem Compression.outputs_run_load (bk : Backend) (recs : List (Chain × Block)) :
    ((Compression.load recs).run bk).outputs = recs.map fun r => cf r.1 r.2 := by
  rw [Compression.outputs, Compression.run_load_lanes, List.map_map]
  refine List.map_congr_left fun r _ => ?_
  obtain ⟨hlv, -, -, -⟩ := Lane.after_frame round 0 64 (Lane.load r.1 r.2)
  simp only [Function.comp_apply, hlv, Lane.after_load_regs]
  rfl

/-- A COMPRESS's response payload is 32 bytes per record. -/
theorem outputs_flatMap_stateEnc_length (bk : Backend) (recs : List (Chain × Block)) :
    (((Compression.load recs).run bk).outputs.flatMap stateEnc).length = 32 * recs.length := by
  simp [Compression.outputs_run_load, List.length_flatMap, Function.comp_def, Nat.mul_comm]

/-! ### Response packets (R55, R57) -/

/-! The fields of a response's header word. -/

theorem rspStatus_rspPacket (status opc : Byte) (pl : List Byte) : rspStatus (rspPacket status opc pl) = status :=
  hdrOpc_append status opc _

theorem rspOpc_rspPacket (status opc : Byte) (pl : List Byte) : rspOpc (rspPacket status opc pl) = opc :=
  hdrArg_append status opc _

theorem rspPacket_length (status opc : Byte) (pl : List Byte) : (rspPacket status opc pl).length = 4 + pl.length := by
  simp [rspPacket]

/-- RLEN counts the payload, as far as 16 bits can. -/
theorem rspLen_rspPacket (status opc : Byte) {pl : List Byte} (h : pl.length < 2 ^ 16) :
    rspLen (rspPacket status opc pl) = pl.length := by
  have hlen := hdrLen_append status opc (BitVec.ofNat 16 pl.length)
  simp only [hdrLen, BitVec.extractLsb'_toNat, BitVec.toNat_ofNat] at hlen
  simp only [rspLen, rspPacket, be32enc, List.cons_append, List.getD_cons_succ, List.getD_cons_zero,
    BitVec.extractLsb'_toNat]
  omega

/-! ### The answer to a command, with its STATUS (R150, R154, R155) -/

/-- What the state `t` after a command with opcode `opc` is, from the state `s` before it, by the STATUS of its response. -/
inductive State.Answered (s : State) (opc : Byte) : Byte → State → Prop where
  /-- The command executed. -/
  | executed (t : State) (pl : List Byte) (hcmd : t.cmd = s.cmd) (hrsp : t.rsp = s.rsp ++ [rspPacket 0x00#8 opc pl])
      (hlen : pl.length < 2 ^ 16) : s.Answered opc 0x00#8 t
  /-- The command was rejected. -/
  | rejected (f : Rejection) : s.Answered opc f.code (s.reject f opc)

/-- A COMPRESS that executed. -/
theorem State.answered_compress (bk : Backend) {recs : List (Chain × Block)} (h : recs.length < 2 ^ 8) (opc : Byte)
    (s : State) :
    s.Answered opc 0x00#8 (s.respondOk opc (((Compression.load recs).run bk).outputs.flatMap stateEnc)) :=
  .executed _ _ rfl rfl (by rw [outputs_flatMap_stateEnc_length]; omega)

/-- Under the invariant a well-formed command is answered with the STATUS of R125's table. -/
theorem exec_answered {i : Instr} {s : State} (hwf : i.wf Config.hw = true) (hinv : s.Inv) :
    ∃ t, exec i s = .next t ∧ s.Answered i.opcode (lifecycle i s.st).2 t := by
  obtain ⟨p, hp⟩ := hinv.exists_pending
  cases i with
  | init bk => exact ⟨_, exec_init bk s, .executed _ [] rfl rfl (by decide)⟩
  | absorb pay =>
    cases hst : s.st with
    | terminal => exact ⟨_, exec_absorb_of_terminal pay hst, .rejected .invalidState⟩
    | active =>
      exact ⟨_, exec_absorb_of_pending pay hst hp, .executed _ [] (s.absorbed_cmd p pay) (s.absorbed_rsp p pay) (by decide)⟩
  | final =>
    cases hst : s.st with
    | terminal => exact ⟨_, exec_final_of_terminal hst, .rejected .invalidState⟩
    | active =>
      exact ⟨_, exec_final_of_pending hst hp, .executed _ _ (s.finished_cmd p) (s.finished_rsp p) (by simp)⟩
  | compressS pay =>
    rcases execCompressS_cases pay s with ⟨-, he⟩ | ⟨hlen, -⟩
    · exact ⟨_, he, s.answered_compress _ (by simp) _⟩
    · exact absurd (of_decide_eq_true hwf) hlen
  | compressU pay =>
    rcases execCompressU_cases pay s with ⟨-, he⟩ | ⟨hlen, -⟩
    · exact ⟨_, he, s.answered_compress _ (by simp) _⟩
    · exact absurd (of_decide_eq_true hwf) hlen
  | compressV n pay =>
    rcases execCompressV_cases n pay s with ⟨-, he⟩ | ⟨hbad, -⟩
    · exact ⟨_, he, s.answered_compress _ (by simpa [recordsOf] using n.isLt) _⟩
    · rw [hwf] at hbad; nomatch hbad

/-- A step on a whole packet that is no command rejects it. -/
theorem step_of_decode_illegal {s : State} {opc : Byte} {why : Illegal} {rest : List Byte}
    (h : decode s.cmd = .illegal opc why rest) : step s = .next ((s.takePacket rest).reject .illegalCommand opc) := by
  simp only [step, h, State.rejectPacket]

/-- A step on an incomplete packet waits (R69). -/
theorem step_of_decode_incomplete {s : State} (h : decode s.cmd = .incomplete) : step s = .next s := by
  simp only [step, h]

theorem step_of_illegalHeader {s : State} {opc arg : Byte} {len : BitVec 16} {pay rest : List Byte}
    (hlen : pay.length = len.toNat) (hcmd : s.cmd = packet opc arg len pay ++ rest)
    (h : IllegalHeader Config.hw opc arg len.toNat) :
    step s = .next ((s.takePacket rest).reject .illegalCommand opc) := by
  obtain ⟨why, hd⟩ := decodeWith_of_illegalHeader rest hlen h
  exact step_of_decode_illegal (by rw [hcmd]; exact hd)

/-- ABSORB and FINAL are the commands that R151 rejects in TERMINAL. -/
theorem lifecycle_status {i : Instr} {st : EngineStatus} :
    (lifecycle i st).2 = if (i.opcode = 0x02#8 ∨ i.opcode = 0x03#8) ∧ st = .terminal then 0x01#8 else 0x00#8 := by
  cases i <;> cases st <;> rfl

theorem step_of_legalHeader {s : State} {opc arg : Byte} {len : BitVec 16} {pay rest : List Byte} (hinv : s.Inv)
    (hlen : pay.length = len.toNat) (hcmd : s.cmd = packet opc arg len pay ++ rest)
    (h : ¬ IllegalHeader Config.hw opc arg len.toNat) :
    ∃ t, step s = .next t ∧ (s.takePacket rest).Answered opc
      (if (opc = 0x02#8 ∨ opc = 0x03#8) ∧ s.st = .terminal then 0x01#8 else 0x00#8) t := by
  obtain ⟨i, hd, hi⟩ := decodeWith_of_legalHeader rest hlen h
  obtain ⟨t, ht, hans⟩ := exec_answered hi.wf (hinv.takePacket rest)
  rw [lifecycle_status, hi.opcode] at hans
  exact ⟨t, (step_of_decode_command (by rw [hcmd]; exact hd)).trans ht, hans⟩

/-- Under the invariant a step answers every whole packet, with the STATUS that comes first in the order of the checks
(R156): the operands', then ST's. -/
theorem step_of_packet {s : State} {opc arg : Byte} {len : BitVec 16} {pay rest : List Byte} (hinv : s.Inv)
    (hlen : pay.length = len.toNat) (hcmd : s.cmd = packet opc arg len pay ++ rest) :
    ∃ t status, step s = .next t ∧ (s.takePacket rest).Answered opc status t ∧
      (IllegalHeader Config.hw opc arg len.toNat → status = 0x02#8) ∧
      (¬ IllegalHeader Config.hw opc arg len.toNat →
        status = if (opc = 0x02#8 ∨ opc = 0x03#8) ∧ s.st = .terminal then 0x01#8 else 0x00#8) := by
  by_cases h : IllegalHeader Config.hw opc arg len.toNat
  · exact ⟨_, _, step_of_illegalHeader hlen hcmd h, .rejected .illegalCommand, fun _ => rfl, absurd h⟩
  · obtain ⟨t, ht, hans⟩ := step_of_legalHeader hinv hlen hcmd h
    exact ⟨t, _, ht, hans, fun h' => absurd h' h, fun _ => rfl⟩

/-- The response in an answer: its header's fields, and what a rejection leaves. -/
theorem State.Answered.exists_response {s t : State} {opc status : Byte} (h : s.Answered opc status t) :
    ∃ r, t.cmd = s.cmd ∧ t.rsp = s.rsp ++ [r] ∧ rspOpc r = opc ∧ rspStatus r = status ∧ r.length = 4 + rspLen r ∧
      (status ≠ 0x00#8 → rspLen r = 0 ∧ t = { s with comp := none, rsp := s.rsp ++ [r] }) := by
  cases h with
  | executed t pl hcmd hrsp hlen =>
    exact ⟨_, hcmd, hrsp, rspOpc_rspPacket _ _ _, rspStatus_rspPacket _ _ _,
      by rw [rspLen_rspPacket _ _ hlen, rspPacket_length], fun h => absurd rfl h⟩
  | rejected f =>
    have hlen : rspLen (rspPacket f.code opc []) = 0 := rspLen_rspPacket _ _ (by decide)
    exact ⟨_, rfl, rfl, rspOpc_rspPacket _ _ _, rspStatus_rspPacket _ _ _, by rw [hlen, rspPacket_length]; rfl,
      fun _ => ⟨hlen, rfl⟩⟩

/-! ### Chaining over a stream (R129, R135) -/

/-- Blocks chained in two runs. -/
theorem chainBlocks_add (q r : Nat) (v : Chain) (data : List Byte) :
    chainBlocks (q + r) v data = chainBlocks r (chainBlocks q v data) (data.drop (64 * q)) := by
  induction q generalizing v data with
  | zero => simp [chainBlocks]
  | succ q ih =>
    rw [Nat.add_right_comm, chainBlocks, chainBlocks, ih, List.drop_drop, Nat.mul_succ, Nat.add_comm 64]

/-- The chained blocks do not depend on the bytes behind them. -/
theorem chainBlocks_append {q : Nat} {data : List Byte} (h : 64 * q ≤ data.length) (v : Chain) (more : List Byte) :
    chainBlocks q v (data ++ more) = chainBlocks q v data := by
  induction q generalizing v data with
  | zero => rfl
  | succ q ih =>
    rw [chainBlocks, chainBlocks, List.take_append_of_le_length (by omega), List.drop_append_of_le_length (by omega),
      ih (by rw [List.length_drop]; omega)]

/-- The engine chains V by CF on every backend. -/
theorem State.compressBlocks_v (q : Nat) (data : List Byte) (s : State) :
    (s.compressBlocks q data).v = chainBlocks q s.v data := by
  induction q generalizing data s with
  | zero => rfl
  | succ q ih => simp [State.compressBlocks, chainBlocks, ih, Compression.outputs_run_load]

/-- V after Feed. -/
theorem State.feedAfter_v (p data : List Byte) (s : State) :
    (s.feedAfter p data).v = chainBlocks ((p ++ data).length / 64) s.v (p ++ data) := by
  rw [State.feedAfter, State.storePending_v, State.compressBlocks_v]

/-- The pending bytes after Feed. -/
theorem State.pending_feedAfter (p data : List Byte) (s : State) :
    (s.feedAfter p data).pending = some ((p ++ data).drop (64 * ((p ++ data).length / 64))) :=
  State.pending_storePending _ _ (by rw [feed_rest_length]; omega)

/-- The bytes of a stream behind its last complete block. -/
def streamRest (m : List Byte) : List Byte := m.drop (64 * (m.length / 64))

/-- More bytes behind the rest of a stream make as many more blocks complete as they do in the whole stream. -/
theorem stream_blocks (m data : List Byte) :
    (m ++ data).length / 64 = m.length / 64 + (streamRest m ++ data).length / 64 := by
  simp only [streamRest, List.length_append, List.length_drop]
  omega

theorem drop_stream (m data : List Byte) : (m ++ data).drop (64 * (m.length / 64)) = streamRest m ++ data :=
  List.drop_append_of_le_length (by omega)

/-- The rest of a longer stream, from the rest of the stream. -/
theorem streamRest_append (m data : List Byte) : streamRest (streamRest m ++ data) = streamRest (m ++ data) := by
  rw [streamRest, ← drop_stream, List.drop_drop, drop_stream, ← Nat.mul_add, ← stream_blocks, streamRest]

/-- A longer stream is chained from where the stream has got to. -/
theorem chainBlocks_stream (v : Chain) (m data : List Byte) :
    chainBlocks ((streamRest m ++ data).length / 64) (chainBlocks (m.length / 64) v m) (streamRest m ++ data) =
      chainBlocks ((m ++ data).length / 64) v (m ++ data) := by
  rw [stream_blocks m data, chainBlocks_add, drop_stream, chainBlocks_append (Nat.mul_div_le _ _)]

/-! ### A hash in progress (R127, R132, R135) -/

/-- The state after INIT and ABSORBs of the message so far, `m`: what of the context the digest depends on. -/
structure State.Hashing (m : List Byte) (s : State) : Prop where
  st : s.st = .active
  nbits : s.nbits = BitVec.ofNat 64 (8 * m.length)
  v : s.v = chainBlocks (m.length / 64) Config.hw.iv m
  pending : s.pending = some (streamRest m)

/-- INIT begins the empty message. -/
theorem State.started_hashing (bk : Backend) (s : State) : (s.started bk).Hashing [] := ⟨rfl, rfl, rfl, rfl⟩

/-- ABSORB appends its payload to the message. -/
theorem State.Hashing.absorbed {s : State} {m : List Byte} (h : s.Hashing m) (pay : List Byte) :
    (s.absorbed (streamRest m) pay).Hashing (m ++ pay) where
  st := (s.absorbed_st _ _).trans h.st
  nbits := by
    have hfed : (s.absorbed (streamRest m) pay).nbits = s.nbits + BitVec.ofNat 64 (8 * pay.length) := by
      simp [State.absorbed, State.feedAfter]
    rw [hfed, h.nbits, List.length_append, Nat.mul_add, BitVec.ofNat_add]
  v := by
    rw [State.absorbed, State.respondOk_v, State.feedAfter_v, State.countBytes_v, h.v, chainBlocks_stream]
  pending := by
    rw [← streamRest_append]
    exact State.pending_feedAfter _ _ _

/-- The padding that FINAL feeds is the message's (R131). -/
theorem State.Hashing.padBytes_eq {s : State} {m : List Byte} (h : s.Hashing m) :
    padBytes s.idx.val s.nbits = pad m.length := by
  have hidx : s.idx.val = m.length % 64 := by
    rw [← State.pending_length h.pending]
    exact feed_rest_length m
  rw [hidx, h.nbits, pad]

/-- The digest FINAL reads is the closed form's. -/
theorem State.Hashing.padded_v {s : State} {m : List Byte} (h : s.Hashing m) :
    stateEnc (s.padded (streamRest m)).v = hashOf m := by
  rw [State.padded, h.padBytes_eq, State.feedAfter_v, State.countBytes_v, h.v, chainBlocks_stream]
  rfl

/-! ### Command sequences (R47, R71) -/

theorem execAll_cons {i : Instr} {s t : State} (h : exec i s = .next t) (is : List Instr) :
    execAll (i :: is) s = execAll is t := by
  simp only [execAll, h]

/-- ABSORBs of any pieces and FINAL, from a hash in progress, answer the digest of the whole message. -/
theorem State.Hashing.execAll_absorbs_final {s : State} {m : List Byte} (h : s.Hashing m) (ps : List (List Byte)) :
    ∃ t, execAll (ps.map .absorb ++ [.final]) s = .next t ∧
      t.rsp.getLast? = some (rspPacket 0x00#8 0x03#8 (hashOf (m ++ ps.flatten))) ∧ t.st = .terminal := by
  induction ps generalizing s m with
  | nil =>
    refine ⟨_, execAll_cons (exec_final_of_pending h.st h.pending) [], ?_, rfl⟩
    rw [State.finished_rsp, h.padded_v, List.getLast?_concat, List.flatten_nil, List.append_nil]
  | cons p ps ih =>
    rw [List.map_cons, List.cons_append, execAll_cons (exec_absorb_of_pending p h.st h.pending), List.flatten_cons,
      ← List.append_assoc]
    exact ih (h.absorbed p)

/-- INIT, ABSORBs of any pieces and FINAL, from every state, answer the digest of the message. -/
theorem execAll_init_absorbs_final (bk : Backend) (ps : List (List Byte)) (s : State) :
    ∃ t, execAll (.init bk :: ps.map .absorb ++ [.final]) s = .next t ∧
      t.rsp.getLast? = some (rspPacket 0x00#8 0x03#8 (hashOf ps.flatten)) ∧ t.st = .terminal := by
  rw [List.cons_append, execAll_cons (exec_init bk s)]
  exact (s.started_hashing bk).execAll_absorbs_final ps

/-- The pieces are the message. -/
theorem cutPieces_flatten (fuel : Nat) (m : List Byte) : (cutPieces fuel m).flatten = m := by
  induction fuel generalizing m with
  | zero => simp [cutPieces]
  | succ fuel ih =>
    rw [cutPieces]
    split
    · simp
    · rw [List.flatten_cons, ih, List.take_append_drop]

/-- Every piece fits a payload. -/
theorem cutPieces_length_le {fuel : Nat} {m p : List Byte} (h : m.length ≤ fuel + maxLen) (hp : p ∈ cutPieces fuel m) :
    p.length ≤ maxLen := by
  induction fuel generalizing m with
  | zero => rw [cutPieces, List.mem_singleton] at hp; subst hp; simpa using h
  | succ fuel ih =>
    rw [cutPieces] at hp
    split at hp
    · next hm => rw [List.mem_singleton] at hp; subst hp; exact hm
    · rcases List.mem_cons.1 hp with rfl | hp
      · exact List.length_take_le _ _
      · exact ih (by rw [List.length_drop]; simp only [maxLen] at h ⊢; omega) hp

/-- The expansion of HASH holds well-formed commands only. -/
theorem hashCommands_wf {c : Config} {bk : Backend} {m : List Byte} {i : Instr} (h : i ∈ hashCommands bk m) :
    i.wf c = true := by
  simp only [hashCommands, List.cons_append, List.mem_cons, List.mem_append, List.mem_map, List.not_mem_nil, or_false] at h
  rcases h with rfl | ⟨p, hp, rfl⟩ | rfl
  · rfl
  · exact decide_eq_true (cutPieces_length_le (Nat.le_add_right _ _) hp)
  · rfl

/-! ### The commands that a line's pieces can make (R70, R71) -/

/-- The command is well-formed, or a COMPRESS.V of whole records whose number of lanes this hardware does not have. -/
def WellFormedButLanes (i : Instr) : Prop :=
  i.wf Config.hw = true ∨ ∃ n pay, i = .compressV n pay ∧ pay.length = 96 * n.toNat ∧ (n.toNat = 0 ∨ 8 < n.toNat)

/-- One well-formed command. -/
theorem wellFormedButLanes_singleton {i : Instr} (h : i.wf Config.hw = true) : ∀ j ∈ [i], WellFormedButLanes j :=
  List.forall_mem_singleton.2 (.inl h)

theorem recordBytes_length {v : Chain} {block r : List Byte} (h : recordBytes v block = some r) : r.length = recordLen := by
  rw [recordBytes] at h
  split at h
  · next hblock => cases h; rw [List.length_append, stateEnc_length, hblock]
  · nomatch h

theorem morePairs_length {ts : List Token} {recs : List (List Byte)} (h : morePairs ts = some recs) :
    ∀ r ∈ recs, r.length = recordLen := by
  induction ts using morePairs.induct generalizing recs with
  | case1 v b ts r rs hrs hr ih =>
    simp only [morePairs, hr, hrs, Option.some.injEq] at h
    subst h
    exact List.forall_mem_cons.2 ⟨recordBytes_length hr, ih hrs⟩
  | case2 v b ts hnone ih =>
    rw [morePairs] at h
    split at h
    · next r rs hr hrs => exact absurd hrs (hnone r rs hr)
    · nomatch h
  | case3 => cases h; exact fun _ hr => nomatch hr
  | case4 ts hpair hnil => simp [morePairs] at h

theorem pairs_length {ts : List Token} {recs : List (List Byte)} (h : pairs ts = some recs) :
    ∀ r ∈ recs, r.length = recordLen := by
  cases ts with
  | nil => cases h; exact fun _ hr => nomatch hr
  | cons t ts => exact morePairs_length h

theorem assembleInit_wellFormed {ts : List Token} {is : List Instr} (h : assembleInit ts = some is) :
    ∀ i ∈ is, WellFormedButLanes i := by
  unfold assembleInit at h
  split at h
  · cases h; exact wellFormedButLanes_singleton rfl
  · obtain ⟨bk, -, rfl⟩ := Option.map_eq_some_iff.1 h
    exact wellFormedButLanes_singleton rfl
  · nomatch h

theorem assembleAbsorb_wellFormed {ts : List Token} {is : List Instr} (h : assembleAbsorb ts = some is) :
    ∀ i ∈ is, WellFormedButLanes i := by
  unfold assembleAbsorb at h
  split at h
  · split at h
    · next hlen => cases h; exact wellFormedButLanes_singleton (decide_eq_true hlen)
    · nomatch h
  · nomatch h

theorem assembleFinal_wellFormed {ts : List Token} {is : List Instr} (h : assembleFinal ts = some is) :
    ∀ i ∈ is, WellFormedButLanes i := by
  unfold assembleFinal at h
  split at h
  · cases h; exact wellFormedButLanes_singleton rfl
  · nomatch h

theorem assembleRecord_wellFormed {command : List Byte → Instr} {ts : List Token} {is : List Instr}
    (hcommand : ∀ r, r.length = recordLen → (command r).wf Config.hw = true) (h : assembleRecord command ts = some is) :
    ∀ i ∈ is, WellFormedButLanes i := by
  unfold assembleRecord at h
  split at h
  · obtain ⟨r, hr, rfl⟩ := Option.map_eq_some_iff.1 h
    exact wellFormedButLanes_singleton (hcommand r (recordBytes_length hr))
  · nomatch h

theorem flatten_length_of_records {recs : List (List Byte)} (h : ∀ r ∈ recs, r.length = recordLen) :
    recs.flatten.length = recordLen * recs.length := by
  rw [List.length_flatten, List.map_congr_left h, List.map_const', List.sum_replicate, smul_eq_mul, Nat.mul_comm]

/-- ARG is the number of the pairs, so that the payload is as long as ARG says. -/
theorem assembleV_wellFormed {recs : List (List Byte)} {is : List Instr} (hrecs : ∀ r ∈ recs, r.length = recordLen)
    (h : assembleV recs = some is) : ∀ i ∈ is, WellFormedButLanes i := by
  rw [assembleV] at h
  split at h
  · next hmax =>
    cases h
    have hn : (BitVec.ofNat 8 recs.length).toNat = recs.length := by rw [BitVec.toNat_ofNat]; omega
    have hlen := flatten_length_of_records hrecs
    refine List.forall_mem_singleton.2 ?_
    by_cases hlanes : 1 ≤ recs.length ∧ recs.length ≤ 8
    · exact .inl (Instr.wf_compressV_iff.2 (by rw [hn]; exact ⟨hlanes.1, hlanes.2, hlen⟩))
    · exact .inr ⟨_, _, rfl, by rw [hn, hlen], by rw [hn]; omega⟩
  · nomatch h

theorem assembleHash_wellFormed {bk : Backend} {ts : List Token} {is : List Instr} (h : assembleHash bk ts = some is) :
    ∀ i ∈ is, WellFormedButLanes i := by
  unfold assembleHash at h
  split at h
  · cases h; exact fun i hi => .inl (hashCommands_wf hi)
  · nomatch h

theorem assembleCommand_wellFormed {m : Text} {ts : List Token} {is : List Instr} (h : assembleCommand m ts = some is) :
    ∀ i ∈ is, WellFormedButLanes i := by
  rw [assembleCommand] at h
  split_ifs at h
  · exact assembleInit_wellFormed h
  · exact assembleAbsorb_wellFormed h
  · exact assembleFinal_wellFormed h
  · exact assembleRecord_wellFormed (command := .compressS) (fun _ hr => decide_eq_true hr) h
  · exact assembleRecord_wellFormed (command := .compressU) (fun _ hr => decide_eq_true hr) h
  · obtain ⟨recs, hrecs, hv⟩ := Option.bind_eq_some_iff.1 h
    exact assembleV_wellFormed (pairs_length hrecs) hv
  · exact assembleHash_wellFormed h
  · exact assembleHash_wellFormed h
  · exact assembleHash_wellFormed h

theorem assembleTokens_wellFormed {ts : List Token} {is : List Instr} (h : assembleTokens ts = some is) :
    ∀ i ∈ is, WellFormedButLanes i := by
  unfold assembleTokens at h
  split at h
  · cases h; exact fun _ hi => nomatch hi
  · exact assembleCommand_wellFormed h
  · nomatch h

/-! ### The pieces of a line of R70 or R71 -/

/-- The mnemonic a line begins with. -/
def Line.mnemonic : Line → Text
  | .init _ => ['I', 'N', 'I', 'T']
  | .absorb _ => ['A', 'B', 'S', 'O', 'R', 'B']
  | .final => ['F', 'I', 'N', 'A', 'L']
  | .compressS _ _ => ['C', 'O', 'M', 'P', 'R', 'E', 'S', 'S', '.', 'S']
  | .compressU _ _ => ['C', 'O', 'M', 'P', 'R', 'E', 'S', 'S', '.', 'U']
  | .compressV _ => ['C', 'O', 'M', 'P', 'R', 'E', 'S', 'S', '.', 'V']
  | .hash bk _ => hashName bk

/-- What a line writes behind its mnemonic. -/
def Line.operandText : Line → Text
  | .init none => []
  | .init (some bk) => [' ', backendLetter bk]
  | .absorb l => ' ' :: l.text
  | .final => []
  | .compressS v b => ' ' :: recordText v b
  | .compressU v b => ' ' :: recordText v b
  | .compressV ps => ' ' :: pairsText ps
  | .hash _ l => ' ' :: l.text

theorem Line.text_eq (l : Line) : l.text = l.mnemonic ++ l.operandText := by
  cases l with
  | init bk => cases bk <;> rfl
  | hash bk l => exact List.append_assoc _ _ _
  | _ => rfl

/-- The pieces of a state and a block. -/
def recordTokens (v : Chain) (block : Literal) : List Token := .state v :: .comma :: block.tokens

/-- The pieces of the further pairs of COMPRESS.V. -/
def morePairsTokens (ps : List (Chain × Literal)) : List Token :=
  ps.flatMap fun p => .comma :: .leftParen :: (recordTokens p.1 p.2 ++ [.rightParen])

/-- The pieces of the pairs of COMPRESS.V. -/
def pairsTokens : List (Chain × Literal) → List Token
  | [] => []
  | p :: ps => .leftParen :: (recordTokens p.1 p.2 ++ .rightParen :: morePairsTokens ps)

/-- The pieces of a line behind its mnemonic. -/
def Line.operandTokens : Line → List Token
  | .init none => []
  | .init (some bk) => [.name [backendLetter bk]]
  | .absorb l => l.tokens
  | .final => []
  | .compressS v b => recordTokens v b
  | .compressU v b => recordTokens v b
  | .compressV ps => pairsTokens ps
  | .hash _ l => l.tokens

/-- What may stand behind a line: nothing, or blanks and a comment, the first of them a blank. -/
structure LineEnd (u : Text) : Prop where
  scan : scan .between u = some []
  blank : ∀ c, u.head? = some c → c = ' '

theorem lineEnd_nil : LineEnd [] := ⟨rfl, nofun⟩

theorem scan_semicolon (comment : Text) : scan .between (';' :: comment) = some [] := by
  rw [scan_inside (m := .between) (m' := .comment) (by decide), scan_comment]

theorem lineEnd_comment (comment : Text) : LineEnd ([' ', ';'] ++ comment) where
  scan := (scan_blank _).trans (scan_semicolon comment)
  blank := by simp

/-- No letter and no digit follows a line. -/
theorem LineEnd.not_nameChar {u : Text} (h : LineEnd u) : ∀ c, u.head? = some c → nameChar c = false := by
  intro c hc
  rw [h.blank c hc]
  decide

theorem LineEnd.not_digit {u : Text} (h : LineEnd u) : ∀ c, u.head? = some c → ¬ (48 ≤ c.toNat ∧ c.toNat ≤ 57) := by
  intro c hc
  rw [h.blank c hc]
  decide

/-- A pair's closing parenthesis is no digit. -/
theorem scan_recordText_rightParen (v : Chain) {b : Literal} (u : Text) (hb : b.wf = true) :
    scan .between (recordText v b ++ ')' :: u) =
      (scan .between u).map fun rest => recordTokens v b ++ .rightParen :: rest := by
  rw [scan_recordText v b _ hb (by simp), scan_rightParen, Option.map_map]
  rfl

theorem scan_morePairsText {ps : List (Chain × Literal)} (u : Text) (h : ∀ p ∈ ps, p.2.wf = true) :
    scan .between (morePairsText ps ++ u) = (scan .between u).map fun rest => morePairsTokens ps ++ rest := by
  induction ps with
  | nil => simp [morePairsText, morePairsTokens]
  | cons p ps ih =>
    obtain ⟨hp, hps⟩ := List.forall_mem_cons.1 h
    have htext : morePairsText (p :: ps) ++ u =
        ',' :: ' ' :: '(' :: (recordText p.1 p.2 ++ ')' :: (morePairsText ps ++ u)) := by
      simp [morePairsText]
    rw [htext, scan_comma, scan_blank, scan_leftParen, scan_recordText_rightParen _ _ hp, ih hps]
    simp [Option.map_map, Function.comp_def, morePairsTokens]

theorem scan_pairsText {ps : List (Chain × Literal)} (u : Text) (h : ∀ p ∈ ps, p.2.wf = true) :
    scan .between (pairsText ps ++ u) = (scan .between u).map fun rest => pairsTokens ps ++ rest := by
  cases ps with
  | nil => simp [pairsText, pairsTokens]
  | cons p ps =>
    obtain ⟨hp, hps⟩ := List.forall_mem_cons.1 h
    have htext : pairsText (p :: ps) ++ u = '(' :: (recordText p.1 p.2 ++ ')' :: (morePairsText ps ++ u)) := by
      simp [pairsText]
    rw [htext, scan_leftParen, scan_recordText_rightParen _ _ hp, scan_morePairsText _ hps]
    simp [Option.map_map, Function.comp_def, pairsTokens]

/-- A COMPRESS.V line has at most 255 pairs, of well-formed literals of 64 bytes. -/
theorem Line.wf_compressV {ps : List (Chain × Literal)} :
    (Line.compressV ps).wf = true ↔ ps.length ≤ 255 ∧ ∀ p ∈ ps, p.2.wf = true ∧ p.2.value.length = 64 := by
  simp [Line.wf]

/-- The operands of a well-formed line are scanned to their pieces. -/
theorem scan_operandText {l : Line} {u : Text} (hl : l.wf = true) (hu : LineEnd u) :
    scan .between (l.operandText ++ u) = some l.operandTokens := by
  have hliteral : ∀ b : Literal, b.wf = true → scan .between (' ' :: b.text ++ u) = some b.tokens := by
    intro b hb
    rw [List.cons_append, scan_blank, scan_literal b u hb hu.not_digit, hu.scan]
    simp
  have hrecord : ∀ (v : Chain) (b : Literal), b.wf = true →
      scan .between (' ' :: recordText v b ++ u) = some (recordTokens v b) := by
    intro v b hb
    rw [List.cons_append, scan_blank, scan_recordText v b u hb hu.not_digit, hu.scan]
    simp [recordTokens]
  cases l with
  | init bk =>
    cases bk with
    | none => exact hu.scan
    | some bk =>
      change scan .between (' ' :: ([backendLetter bk] ++ u)) = _
      rw [scan_blank, scan_mnemonic _ _ (by simp) (by cases bk <;> decide) hu.not_nameChar, hu.scan]
      rfl
  | absorb b => simp only [Line.wf, Bool.and_eq_true] at hl; exact hliteral b hl.1
  | final => exact hu.scan
  | compressS v b => simp only [Line.wf, Bool.and_eq_true] at hl; exact hrecord v b hl.1
  | compressU v b => simp only [Line.wf, Bool.and_eq_true] at hl; exact hrecord v b hl.1
  | compressV ps =>
    change scan .between (' ' :: (pairsText ps ++ u)) = _
    rw [scan_blank, scan_pairsText u fun p hp => ((Line.wf_compressV.1 hl).2 p hp).1, hu.scan]
    simp [Line.operandTokens]
  | hash bk b => exact hliteral b hl

/-- The letters of a line's mnemonic. -/
theorem Line.mnemonic_nameChars (l : Line) :
    l.mnemonic ≠ [] ∧ l.mnemonic.all nameChar = true ∧ l.mnemonic ≠ ['P', 'A', 'D', 'B', 'Y', 'T', 'E', 'S'] := by
  cases l with
  | hash bk b => cases bk <;> simp only [Line.mnemonic, hashName] <;> decide
  | _ => simp only [Line.mnemonic]; decide

theorem Line.head_operandText (l : Line) {u : Text} (hu : LineEnd u) :
    ∀ c, (l.operandText ++ u).head? = some c → nameChar c = false := by
  have hblank : nameChar ' ' = false := by decide
  cases l with
  | init bk =>
    cases bk with
    | none => exact hu.not_nameChar
    | some bk => simpa [Line.operandText] using hblank
  | final => exact hu.not_nameChar
  | _ => simpa [Line.operandText] using hblank

/-- The pieces of a line. -/
theorem scan_lineText {l : Line} {u : Text} (hl : l.wf = true) (hu : LineEnd u) :
    scan .between (l.text ++ u) = some (.name l.mnemonic :: l.operandTokens) := by
  obtain ⟨hne, hletters, -⟩ := l.mnemonic_nameChars
  rw [Line.text_eq, List.append_assoc, scan_mnemonic _ _ hne hletters (l.head_operandText hu), scan_operandText hl hu]
  rfl

/-! ### The commands of a line of R70 or R71 -/

/-- Only the mnemonic PADBYTES stands for a literal. -/
theorem expandPadBytes_name {m : Text} (h : m ≠ ['P', 'A', 'D', 'B', 'Y', 'T', 'E', 'S']) (ts : List Token) :
    expandPadBytes (.name m :: ts) = .name m :: expandPadBytes ts := by
  rw [expandPadBytes]
  intro n ts' hm
  exact absurd (Token.name.inj hm) h

theorem expandPadBytes_recordTokens (v : Chain) (b : Literal) (ts : List Token) :
    expandPadBytes (recordTokens v b ++ ts) = .state v :: .comma :: .bytes b.value :: expandPadBytes ts := by
  simp [recordTokens, expandPadBytes, expandPadBytes_literal]

theorem recordBytes_eq {v : Chain} {block : List Byte} (h : block.length = 64) :
    recordBytes v block = some (stateEnc v ++ block) := if_pos h

/-- The records of pairs, in order. -/
def recordsBytes (ps : List (Chain × Literal)) : List (List Byte) := ps.map fun p => stateEnc p.1 ++ p.2.value

theorem morePairs_morePairsTokens {ps : List (Chain × Literal)} (h : ∀ p ∈ ps, p.2.value.length = 64) :
    morePairs (expandPadBytes (morePairsTokens ps)) = some (recordsBytes ps) := by
  induction ps with
  | nil => rfl
  | cons p ps ih =>
    obtain ⟨hp, hps⟩ := List.forall_mem_cons.1 h
    have htokens : morePairsTokens (p :: ps) =
        .comma :: .leftParen :: (recordTokens p.1 p.2 ++ .rightParen :: morePairsTokens ps) := by
      simp [morePairsTokens]
    simp only [htokens, expandPadBytes, expandPadBytes_recordTokens, morePairs, recordBytes_eq hp, ih hps]
    rfl

theorem pairs_pairsTokens {ps : List (Chain × Literal)} (h : ∀ p ∈ ps, p.2.value.length = 64) :
    pairs (expandPadBytes (pairsTokens ps)) = some (recordsBytes ps) := by
  cases ps with
  | nil => rfl
  | cons p ps =>
    rw [← morePairs_morePairsTokens h]
    simp [pairsTokens, morePairsTokens, expandPadBytes, pairs]

/-- A literal by itself is its bytes. -/
theorem expandPadBytes_tokens (l : Literal) : expandPadBytes l.tokens = [.bytes l.value] := by
  have h := expandPadBytes_literal l []
  rwa [List.append_nil] at h

theorem assembleRecord_recordTokens (command : List Byte → Instr) (v : Chain) {b : Literal} (h : b.value.length = 64) :
    assembleRecord command (expandPadBytes (recordTokens v b)) = some [command (stateEnc v ++ b.value)] := by
  have hrecord := expandPadBytes_recordTokens v b []
  rw [List.append_nil] at hrecord
  simp [hrecord, expandPadBytes, assembleRecord, recordBytes_eq h]

/-- The operands of a well-formed line make its commands. -/
theorem assembleCommand_operandTokens {l : Line} (hl : l.wf = true) :
    assembleCommand l.mnemonic (expandPadBytes l.operandTokens) = some l.commands := by
  cases l with
  | init bk =>
    cases bk with
    | none => rfl
    | some bk => cases bk <;> rfl
  | absorb b =>
    simp only [Line.wf, Bool.and_eq_true, decide_eq_true_eq] at hl
    change assembleAbsorb (expandPadBytes b.tokens) = _
    rw [expandPadBytes_tokens]
    exact if_pos hl.2
  | final => rfl
  | compressS v b =>
    simp only [Line.wf, Bool.and_eq_true, decide_eq_true_eq] at hl
    exact assembleRecord_recordTokens _ v hl.2
  | compressU v b =>
    simp only [Line.wf, Bool.and_eq_true, decide_eq_true_eq] at hl
    exact assembleRecord_recordTokens _ v hl.2
  | compressV ps =>
    obtain ⟨hmax, hps⟩ := Line.wf_compressV.1 hl
    change (pairs (expandPadBytes (pairsTokens ps))).bind assembleV = _
    rw [pairs_pairsTokens fun p hp => (hps p hp).2, Option.bind_some, assembleV, recordsBytes, List.length_map, if_pos hmax]
    rfl
  | hash bk b =>
    have hash : assembleHash bk (expandPadBytes b.tokens) = some (hashCommands bk b.value) := by
      rw [expandPadBytes_tokens]; rfl
    cases bk <;> exact hash

/-- A line of R70 or R71 assembles to its commands, whatever comment follows. -/
theorem assemble_lineText {l : Line} {u : Text} (hl : l.wf = true) (hu : LineEnd u) :
    assemble (l.text ++ u) = some l.commands := by
  obtain ⟨-, -, hname⟩ := l.mnemonic_nameChars
  rw [assemble, scan_lineText hl hu, Option.bind_some, expandPadBytes_name hname, assembleTokens,
    assembleCommand_operandTokens hl]

/-- Without a comment. -/
theorem assemble_text {l : Line} (hl : l.wf = true) : assemble l.text = some l.commands := by
  simpa using assemble_lineText hl lineEnd_nil

/-- A line without pieces stands for no command. -/
theorem assemble_of_scan_nil {line : Text} (h : scan .between line = some []) : assemble line = some [] := by
  rw [assemble, h]
  rfl

/-! ### What an assembled COMPRESS answers (R73, R74, R112, R113, R115) -/

/-- The first record of a payload. -/
theorem recordAt_zero (v : Chain) {block : List Byte} (h : block.length = 64) (more : List Byte) :
    recordAt (stateEnc v ++ block ++ more) 0 = (v, blockOf block) := by
  have hstate : payRead (stateEnc v ++ block ++ more) 0 32 = stateEnc v := by
    rw [payRead, List.drop_zero, List.append_assoc]
    exact List.take_left' (stateEnc_length v)
  have hblock : payRead (stateEnc v ++ block ++ more) 32 64 = block := by
    rw [payRead, List.append_assoc, List.drop_left' (stateEnc_length v)]
    exact List.take_left' h
  rw [recordAt, Nat.mul_zero, Nat.zero_add, hstate, hblock, stateDec_stateEnc]

/-- A record later in a payload is the record of what follows the first. -/
theorem recordAt_succ {r : List Byte} (h : r.length = recordLen) (more : List Byte) (l : Nat) :
    recordAt (r ++ more) (l + 1) = recordAt more l := by
  have hdrop (a : Nat) : (r ++ more).drop (recordLen * (l + 1) + a) = more.drop (recordLen * l + a) := by
    have hoffset : recordLen * (l + 1) + a = r.length + (recordLen * l + a) := by rw [h, Nat.mul_succ]; omega
    rw [hoffset, List.drop_length_add_append]
  have hstate : (r ++ more).drop (recordLen * (l + 1)) = more.drop (recordLen * l) := hdrop 0
  rw [recordAt, recordAt, payRead, payRead, payRead, payRead, hstate, hdrop]

/-- The records of a payload of whole records. -/
theorem recordsOf_recordsBytes {ps : List (Chain × Literal)} (h : ∀ p ∈ ps, p.2.value.length = 64) :
    recordsOf (recordsBytes ps).flatten ps.length = ps.map fun p => (p.1, blockOf p.2.value) := by
  induction ps with
  | nil => rfl
  | cons p ps ih =>
    obtain ⟨hp, hps⟩ := List.forall_mem_cons.1 h
    have hlen : (stateEnc p.1 ++ p.2.value).length = recordLen := by rw [List.length_append, stateEnc_length, hp]
    rw [recordsOf, List.length_cons, List.range_succ_eq_map, List.map_cons, List.map_map, List.map_cons, ← ih hps]
    refine congrArg₂ List.cons (recordAt_zero p.1 hp _) (List.map_congr_left fun l _ => recordAt_succ hlen _ l)

theorem recordsBytes_flatten_length {ps : List (Chain × Literal)} (h : ∀ p ∈ ps, p.2.value.length = 64) :
    (recordsBytes ps).flatten.length = recordLen * ps.length := by
  have hrecs : ∀ r ∈ recordsBytes ps, r.length = recordLen := by
    intro r hr
    obtain ⟨p, hp, rfl⟩ := List.mem_map.1 hr
    rw [List.length_append, stateEnc_length, h p hp]
  rw [flatten_length_of_records hrecs, recordsBytes, List.length_map]

/-- On every backend a payload of one record answers CF of it. -/
theorem outputs_of_record (bk : Backend) (v : Chain) {block : List Byte} (h : block.length = 64) :
    ((Compression.load [recordAt (stateEnc v ++ block) 0]).run bk).outputs.flatMap stateEnc =
      stateEnc (cf v (blockOf block)) := by
  have hrec := recordAt_zero v h []
  rw [List.append_nil] at hrec
  rw [hrec, Compression.outputs_run_load]
  simp

theorem exec_compressS_record (v : Chain) {block : List Byte} (h : block.length = 64) (s : State) :
    exec (.compressS (stateEnc v ++ block)) s = .next (s.respondOk 0x10#8 (stateEnc (cf v (blockOf block)))) := by
  rcases execCompressS_cases (stateEnc v ++ block) s with ⟨-, he⟩ | ⟨hlen, -⟩
  · rw [exec, he, outputs_of_record _ v h]
  · exact absurd (recordBytes_length (recordBytes_eq h)) hlen

theorem exec_compressU_record (v : Chain) {block : List Byte} (h : block.length = 64) (s : State) :
    exec (.compressU (stateEnc v ++ block)) s = .next (s.respondOk 0x11#8 (stateEnc (cf v (blockOf block)))) := by
  rcases execCompressU_cases (stateEnc v ++ block) s with ⟨-, he⟩ | ⟨hlen, -⟩
  · rw [exec, he, outputs_of_record _ v h]
  · exact absurd (recordBytes_length (recordBytes_eq h)) hlen

/-- COMPRESS.V answers CF of each of its records, in order. -/
theorem exec_compressV_records {ps : List (Chain × Literal)} (hpos : 1 ≤ ps.length) (hmax : ps.length ≤ 8)
    (h : ∀ p ∈ ps, p.2.value.length = 64) (s : State) :
    exec (.compressV (BitVec.ofNat 8 ps.length) (recordsBytes ps).flatten) s =
      .next (s.respondOk 0x12#8 (ps.flatMap fun p => stateEnc (cf p.1 (blockOf p.2.value)))) := by
  have hn : (BitVec.ofNat 8 ps.length).toNat = ps.length := by rw [BitVec.toNat_ofNat]; omega
  rcases execCompressV_cases (BitVec.ofNat 8 ps.length) (recordsBytes ps).flatten s with ⟨-, he⟩ | ⟨hbad, -⟩
  · rw [exec, he, hn, recordsOf_recordsBytes h, Compression.outputs_run_load, List.map_map, List.flatMap_map]
    rfl
  · rw [Instr.wf_compressV_iff.2 (by rw [hn]; exact ⟨hpos, hmax, recordsBytes_flatten_length h⟩)] at hbad
    nomatch hbad

end Sys2Proof.Machine

/-! ### The settled statements -/

namespace Sys2Proof.Proofs

open Sys2Proof.Machine

/-- Settles O1. -/
theorem decodeOfEncodeIsTheCommand : Obligations.DecodeOfEncodeIsTheCommand :=
  fun _ _ rest hwf => decodeWith_encode_append hwf rest

/-- Settles O2: the accepted command has the header's fields, and a header is its fields. -/
theorem encodeOfDecodeIsThePacket : Obligations.EncodeOfDecodeIsThePacket := by
  intro c bytes i rest h
  obtain ⟨hdr, pay, rfl, hlen, hd⟩ := exists_packet_of_decodeWith h
  obtain ⟨hwf, hopc, harg, hpay⟩ := decodePacket_hasFields (hlen ▸ hdrLen_le hdr) hd
  have hheader : i.header = hdr := by
    rw [Instr.header, hopc, harg, hpay, hlen, hdrLen, BitVec.ofNat_toNat, BitVec.setWidth_eq, hdr_fields]
  exact ⟨hwf, by rw [encode, hheader, hpay, List.append_assoc]⟩

/-- Settles O3: a header that R67 does not list is a well-formed command's, and the decoder accepts no other. -/
theorem illegalHeadersAreExactlyTheListed : Obligations.IllegalHeadersAreExactlyTheListed := by
  intro c opc arg len pay rest hlen
  refine ⟨decodeWith_of_illegalHeader rest hlen, fun h => ?_⟩
  obtain ⟨i, hd, hi⟩ := decodeWith_of_legalHeader rest hlen h
  exact ⟨i, hd, hi.opcode, hi.arg, hi.payload⟩

/-- Settles O4: the rejection names no field but the two ports and the transient state. -/
theorem illegalCommandIsRejected : Obligations.IllegalCommandIsRejected :=
  fun _ _ _ _ _ _ hlen h hcmd => step_of_illegalHeader hlen hcmd h

/-- Settles O7: every header word is its fields, so `step_of_packet` speaks of every whole packet. -/
theorem packetLengthsComeFromHeaders : Obligations.PacketLengthsComeFromHeaders := by
  refine ⟨fun s hdr pay rest hinv hlen hcmd => ?_, fun s hshort => ?_, fun s hdr part hshort hcmd => ?_⟩
  · rw [← packet_of_hdr] at hcmd
    obtain ⟨t, status, ht, hans, -, -⟩ := step_of_packet hinv hlen hcmd
    obtain ⟨r, htcmd, htrsp, -, -, hrlen, -⟩ := hans.exists_response
    exact ⟨t, r, ht, htcmd, htrsp, hrlen⟩
  · exact step_of_decode_incomplete (decodeWith_of_length_lt hshort)
  · exact step_of_decode_incomplete (by rw [hcmd]; exact decodeWith_of_short_payload hshort)

/-- Settles O8. -/
theorem everyPacketGetsOneResponse : Obligations.EveryPacketGetsOneResponse := by
  intro s opc arg len pay rest hinv hlen hcmd
  obtain ⟨t, status, ht, hans, hillegal, hlegal⟩ := step_of_packet hinv hlen hcmd
  obtain ⟨r, htcmd, htrsp, hopc, rfl, hrlen, hrejected⟩ := hans.exists_response
  refine ⟨t, r, ht, htcmd, htrsp, hopc, hrlen, hillegal, fun h hop hst => ?_, fun h hok => ?_, fun h => ?_⟩
  · rw [hlegal h, if_pos ⟨hop, hst⟩]
  · rw [hlegal h, if_neg hok]
  · obtain ⟨hzero, rfl⟩ := hrejected h
    exact ⟨hzero, by simp [State.takePacket, hinv.idle]⟩

/-- Settles O44: the pieces fit, and any cut of the message is hashed alike. -/
theorem hashExpansionIsLegalAndHashes : Obligations.HashExpansionIsLegalAndHashes := by
  intro s bk m
  refine ⟨fun _ => hashCommands_wf, ?_⟩
  obtain ⟨t, ht, hrsp, -⟩ := execAll_init_absorbs_final bk (cutPieces m.length m) s
  rw [cutPieces_flatten] at hrsp
  exact ⟨t, ht, hrsp⟩

/-- Settles O45, mnemonic by mnemonic. -/
theorem assembledCommandsAreWellFormed : Obligations.AssembledCommandsAreWellFormed := by
  intro line is h
  obtain ⟨ts, -, hts⟩ := Option.bind_eq_some_iff.1 h
  exact assembleTokens_wellFormed hts

/-- Settles O57: a line's text is scanned to its pieces, and its pieces make its commands. -/
theorem linesOfTextStandForTheirCommands : Obligations.LinesOfTextStandForTheirCommands := by
  refine ⟨fun l comment hl => ⟨assemble_text hl, ?_⟩, fun n comment => ⟨?_, ?_⟩⟩
  · rw [List.append_assoc]
    exact assemble_lineText hl (lineEnd_comment comment)
  · have hblanks := scan_blanks n []
    rw [List.append_nil] at hblanks
    exact assemble_of_scan_nil hblanks
  · rw [List.append_assoc]
    exact assemble_of_scan_nil ((scan_blanks n _).trans (scan_semicolon comment))

/-- Settles O46: each line assembles to its command, which answers CF of its records. -/
theorem assembledCompressAnswersCfOfItsLiterals : Obligations.AssembledCompressAnswersCfOfItsLiterals := by
  refine ⟨fun s v block hwf hlen => ⟨?_, ?_⟩, fun s ps hpos hmax hps => ?_⟩
  · exact ⟨_, _, assemble_text (by simp [Line.wf, hwf, hlen]), exec_compressS_record v hlen s, rfl⟩
  · exact ⟨_, _, assemble_text (by simp [Line.wf, hwf, hlen]), exec_compressU_record v hlen s, rfl⟩
  · have hline : (Line.compressV ps).wf = true := Line.wf_compressV.2 ⟨by omega, hps⟩
    have hcommands : (Line.compressV ps).commands =
        [.compressV (BitVec.ofNat 8 ps.length) (recordsBytes ps).flatten] := rfl
    exact ⟨_, _, (assemble_text hline).trans (congrArg some hcommands),
      exec_compressV_records hpos hmax (fun p hp => (hps p hp).2) s, rfl⟩

/-- Settles O5: closed facts, the decoder run on each word. -/
theorem specWordsDecodeAsListed : Obligations.SpecWordsDecodeAsListed := by
  unfold Obligations.SpecWordsDecodeAsListed
  decide +kernel

end Sys2Proof.Proofs
end

section
/-!
PROOFS of the family "scheduler": rotation and byte order over xor, the schedule word by word, and its linearity.
-/

namespace Sys2Proof.Machine

/-! ### Xor under rotation, the permutations and byte order (R10, R12, R82, R94) -/

/-- Rotation is linear over xor: the two shifts are, and no bit of the result is taken from both. -/
theorem rotl_xor (x y : Word) (n : Nat) : rotl (x ^^^ y) n = rotl x n ^^^ rotl y n := by
  refine BitVec.eq_of_getLsbD_eq fun i hi => ?_
  simp only [rotl, BitVec.getLsbD_or, BitVec.getLsbD_xor, BitVec.getLsbD_shiftLeft, BitVec.getLsbD_ushiftRight]
  by_cases hlow : i < n
  · simp [hlow]
  · have hout (z : Word) : z.getLsbD (32 - n + i) = false := BitVec.getLsbD_of_ge z _ (by omega)
    simp [hi, hlow, hout]

theorem xor_xor_xor_comm (a b c d : Word) : a ^^^ b ^^^ (c ^^^ d) = a ^^^ c ^^^ (b ^^^ d) := by
  ac_rfl

/-- P1 is linear over xor (R82). -/
theorem p1_xor (x y : Word) : p1 (x ^^^ y) = p1 x ^^^ p1 y := by
  rw [p1, rotl_xor, rotl_xor, xor_xor_xor_comm x, xor_xor_xor_comm, ← p1, ← p1]

/-- Decoding a big-endian word is linear over xor: each byte keeps its place. -/
theorem be32dec_xor (a0 a1 a2 a3 b0 b1 b2 b3 : Byte) :
    be32dec (a0 ^^^ b0) (a1 ^^^ b1) (a2 ^^^ b2) (a3 ^^^ b3) = be32dec a0 a1 a2 a3 ^^^ be32dec b0 b1 b2 b3 := by
  simp only [be32dec, ← BitVec.xor_append]

@[simp] theorem xorBlock_getElem (x y : Block) {i : Nat} (h : i < 64) : (xorBlock x y)[i] = x[i] ^^^ y[i] := by
  rw [xorBlock, Vector.getElem_ofFn]

/-- A block xored with itself is the zero block. -/
@[simp] theorem xorBlock_self (x : Block) : xorBlock x x = Vector.replicate 64 0#8 := by
  ext i hi : 1
  simp

/-! ### The schedule, word by word (R81 to R84) -/

/-- The recurrence reads earlier words alone. -/
theorem nextWord_congr {w w' : List Word} {i : Nat} (hi : 16 ≤ i) (h : ∀ k < i, w.getD k 0 = w'.getD k 0) :
    nextWord w i = nextWord w' i := by
  simp only [nextWord, h (i - 16) (by omega), h (i - 9) (by omega), h (i - 3) (by omega), h (i - 13) (by omega),
    h (i - 6) (by omega)]

/-- The recurrence is linear over xor. -/
theorem nextWord_xor {w x y : List Word} {i : Nat} (hi : 16 ≤ i)
    (h : ∀ k < i, w.getD k 0 = x.getD k 0 ^^^ y.getD k 0) : nextWord w i = nextWord x i ^^^ nextWord y i := by
  simp only [nextWord, h (i - 16) (by omega), h (i - 9) (by omega), h (i - 3) (by omega), h (i - 13) (by omega),
    h (i - 6) (by omega), rotl_xor, p1_xor]
  ac_rfl

/-- An extension keeps the words it starts from. -/
theorem extendWords_getD_of_lt (n : Nat) {w : List Word} {i : Nat} (h : i < w.length) :
    (extendWords n w).getD i 0 = w.getD i 0 := by
  induction n generalizing w with
  | zero => rfl
  | succ n ih =>
    rw [extendWords, ih (by rw [List.length_append]; omega), List.getD_append _ _ _ _ h]

/-- Each word an extension adds is the recurrence over the finished schedule: the words it read when it was added have
not changed since. -/
theorem extendWords_getD_of_ge (n : Nat) {w : List Word} {i : Nat} (hw : 16 ≤ w.length) (hi : w.length ≤ i)
    (hn : i < w.length + n) : (extendWords n w).getD i 0 = nextWord (extendWords n w) i := by
  induction n generalizing w with
  | zero => omega
  | succ n ih =>
    obtain rfl | hlater := Nat.eq_or_lt_of_le hi
    · have hadded : (extendWords (n + 1) w).getD w.length 0 = nextWord w w.length := by
        rw [extendWords, extendWords_getD_of_lt n (by simp), List.getD_append_right _ _ _ _ (Nat.le_refl _)]
        simp
      rw [hadded]
      exact nextWord_congr hw fun k hk => (extendWords_getD_of_lt (n + 1) hk).symm
    · have hlength : (w ++ [nextWord w w.length]).length = w.length + 1 := List.length_append
      exact ih (by omega) (by omega) (by omega)

theorem blockWords_length (b : Block) : (blockWords b).length = 16 := by
  simp [blockWords]

/-- W[i] of the expansion is word `i` of the schedule's list. -/
theorem expand_w_eq_getD (b : Block) {i : Nat} (h : i < 68) : (expand b).w[i] = (scheduleWords b).getD i 0 := by
  rw [List.getD_eq_getElem _ _ (by rwa [scheduleWords_length]), expand, expandW, Vector.getElem_mk,
    List.getElem_toArray]

/-- The first 16 words of the expansion come from the block alone (R81). -/
theorem expand_w_of_lt (b : Block) {i : Nat} (h : i < 16) :
    (expand b).w[i] = be32dec b[4 * i] b[4 * i + 1] b[4 * i + 2] b[4 * i + 3] := by
  have hi : i < (blockWords b).length := by rwa [blockWords_length]
  rw [expand_w_eq_getD, scheduleWords, extendWords_getD_of_lt 52 hi, List.getD_eq_getElem _ _ hi]
  simp [blockWords]

/-- W[16..67] are the recurrence over the schedule itself. -/
theorem scheduleWords_getD_of_ge (b : Block) {i : Nat} (h : i < 68) (hi : 16 ≤ i) :
    (scheduleWords b).getD i 0 = nextWord (scheduleWords b) i := by
  have hlength := blockWords_length b
  exact extendWords_getD_of_ge 52 (by omega) (by omega) (by omega)

/-- The recurrence in the words of the expansion (R83). -/
theorem expand_w_of_ge (b : Block) {i : Nat} (h : i < 68) (hi : 16 ≤ i) :
    (expand b).w[i] =
      p1 ((expand b).w[i - 16] ^^^ (expand b).w[i - 9] ^^^ rotl (expand b).w[i - 3] 15)
        ^^^ rotl (expand b).w[i - 13] 7 ^^^ (expand b).w[i - 6] := by
  simp only [expand_w_eq_getD, scheduleWords_getD_of_ge b h hi, nextWord]

/-- The derived words read the schedule alone (R84). -/
theorem expand_w1 (b : Block) {i : Nat} (h : i < 64) : (expand b).w1[i] = (expand b).w[i] ^^^ (expand b).w[i + 4] :=
  Vector.getElem_ofFn h

/-! ### Linearity (R85) -/

/-- The schedule is linear over xor, by the recurrence: the block's words are, and each later word is xors and rotations
of earlier ones. -/
theorem expand_xorBlock_w (x y : Block) {i : Nat} (h : i < 68) :
    (expand (xorBlock x y)).w[i] = (expand x).w[i] ^^^ (expand y).w[i] := by
  induction i using Nat.strong_induction_on with
  | h i ih =>
    by_cases hi : i < 16
    · simp only [expand_w_of_lt _ hi, xorBlock_getElem, be32dec_xor]
    · have hge : 16 ≤ i := Nat.le_of_not_lt hi
      simp only [expand_w_eq_getD, scheduleWords_getD_of_ge _ h hge]
      refine nextWord_xor hge fun k hk => ?_
      have hearlier := ih k hk (by omega)
      simpa only [expand_w_eq_getD] using hearlier

/-- The derived words are linear over xor. -/
theorem expand_xorBlock_w1 (x y : Block) {i : Nat} (h : i < 64) :
    (expand (xorBlock x y)).w1[i] = (expand x).w1[i] ^^^ (expand y).w1[i] := by
  rw [expand_w1 _ h, expand_xorBlock_w, expand_xorBlock_w, xor_xor_xor_comm, ← expand_w1 x h, ← expand_w1 y h]

/-- The zero block is any block xored with itself, and so is each of its words. -/
theorem expand_zero_w {i : Nat} (h : i < 68) : (expand (Vector.replicate 64 0#8)).w[i] = 0#32 := by
  have hlinear := expand_xorBlock_w (Vector.replicate 64 0#8) (Vector.replicate 64 0#8) h
  rwa [xorBlock_self, BitVec.xor_self] at hlinear

end Sys2Proof.Machine

/-! ### The settled statements -/

namespace Sys2Proof.Proofs

open Sys2Proof.Machine

/-- Settles O14: the words an extension keeps, and the words it adds. -/
theorem scheduleFollowsTheRecurrence : Obligations.ScheduleFollowsTheRecurrence :=
  fun b => ⟨fun _ => expand_w_of_lt b, fun _ => expand_w_of_ge b⟩

/-- Settles O15: below index 12 both words of the xor are block words, so with equal block words they cancel. -/
theorem derivedWordsAreXorsFourApart : Obligations.DerivedWordsAreXorsFourApart := by
  refine fun b => ⟨fun _ => expand_w1 b, fun hequal i hi => ?_⟩
  rw [expand_w1 b (by omega), hequal i (by omega), hequal (i + 4) (by omega), BitVec.xor_self]

/-- Settles O16. -/
theorem expansionIsLinearOverXor : Obligations.ExpansionIsLinearOverXor :=
  ⟨fun x y => ⟨fun _ => expand_xorBlock_w x y, fun _ => expand_xorBlock_w1 x y⟩, fun _ => expand_zero_w⟩

/-- Settles O19: the amounts by definition, linearity from rotation's; the corner cases and examples are closed facts. -/
theorem permutationsXorTheirRotations : Obligations.PermutationsXorTheirRotations :=
  ⟨fun _ => ⟨rfl, rfl⟩, p1_xor, by decide, by decide⟩

end Sys2Proof.Proofs
end

section
/-!
PROOFS of the family "round": the two bands of the round functions, the rotated constants, and CF as its 64 rounds.
-/

namespace Sys2Proof.Machine

/-! ### The round constants (R90) -/

theorem tConst_of_lt {j : Nat} (h : j < 16) : tConst j = tLo := if_pos h

theorem tConst_of_ge {j : Nat} (h : 16 ≤ j) : tConst j = tHi := if_neg (Nat.not_lt.2 h)

/-! ### FF: xor and majority (R92) -/

theorem ff_of_lt {j : Nat} (h : j < 16) (a b c : Word) : ff j a b c = a ^^^ b ^^^ c := if_pos h

theorem ff_of_ge {j : Nat} (h : 16 ≤ j) (a b c : Word) : ff j a b c = (a &&& b) ||| (a &&& c) ||| (b &&& c) :=
  if_neg (Nat.not_lt.2 h)

/-- The majority form on single bits: it is 1 exactly when at least two of the three are. -/
theorem majority_iff_two_le :
    ∀ p q r : Bool, (p && q || p && r || q && r) = true ↔ 2 ≤ p.toNat + q.toNat + r.toNat := by
  decide

/-- FF's second band is bitwise. -/
theorem getLsbD_ff_of_ge {j : Nat} (h : 16 ≤ j) (a b c : Word) (i : Nat) :
    (ff j a b c).getLsbD i =
      (a.getLsbD i && b.getLsbD i || a.getLsbD i && c.getLsbD i || b.getLsbD i && c.getLsbD i) := by
  rw [ff_of_ge h, BitVec.getLsbD_or, BitVec.getLsbD_or, BitVec.getLsbD_and, BitVec.getLsbD_and, BitVec.getLsbD_and]

/-- Two equal inputs are a majority. -/
theorem ff_self_of_ge {j : Nat} (h : 16 ≤ j) (x y : Word) : ff j x x y = x := by
  refine BitVec.eq_of_getLsbD_eq fun i _ => ?_
  rw [getLsbD_ff_of_ge h, Bool.and_self, Bool.or_assoc, Bool.or_self]
  exact sup_inf_self

/-! ### GG: xor and choose (R93) -/

theorem gg_of_lt {j : Nat} (h : j < 16) (e f g : Word) : gg j e f g = e ^^^ f ^^^ g := if_pos h

theorem gg_of_ge {j : Nat} (h : 16 ≤ j) (e f g : Word) : gg j e f g = (e &&& f) ||| (~~~e &&& g) :=
  if_neg (Nat.not_lt.2 h)

/-- GG's second band is bitwise: the e bit chooses between the f bit and the g bit. -/
theorem getLsbD_gg_of_ge {j : Nat} (h : 16 ≤ j) (e f g : Word) {i : Nat} (hi : i < 32) :
    (gg j e f g).getLsbD i = if e.getLsbD i then f.getLsbD i else g.getLsbD i := by
  rw [gg_of_ge h, BitVec.getLsbD_or, BitVec.getLsbD_and, BitVec.getLsbD_and, BitVec.getLsbD_not]
  cases e.getLsbD i <;> simp [hi]

/-- With no e bit set every bit is g's. -/
theorem gg_zero_of_ge {j : Nat} (h : 16 ≤ j) (f g : Word) : gg j 0#32 f g = g := by
  refine BitVec.eq_of_getLsbD_eq fun i hi => ?_
  rw [getLsbD_gg_of_ge h _ _ _ hi, BitVec.getLsbD_zero]
  rfl

/-- With every e bit set every bit is f's. -/
theorem gg_allOnes_of_ge {j : Nat} (h : 16 ≤ j) (f g : Word) : gg j (BitVec.allOnes 32) f g = f := by
  refine BitVec.eq_of_getLsbD_eq fun i hi => ?_
  rw [getLsbD_gg_of_ge h _ _ _ hi, BitVec.getLsbD_allOnes, if_pos (by simpa using hi)]

/-! ### CF (R96, R99, R100) -/

/-- CF's 64 rounds as the rounds of a loaded lane: by increasing j, on the schedule's words. -/
theorem rounds64_expand (v : Chain) (b : Block) :
    rounds64 (expand b) (seed v) =
      (List.range 64).foldl
        (fun r j => round j r ((expand b).w.toList.getD j 0) ((expand b).w1.toList.getD j 0)) (seed v) := by
  rw [← Lane.after_load_regs, Lane.after_regs, ← List.range_eq_range']
  rfl

/-- The feed-forward xors word by word. -/
theorem chainWords_feedForward (v : Chain) (r : Regs) :
    chainWords (feedForward v r) =
      List.zipWith (· ^^^ ·) (chainWords v) [r.a, r.b, r.c, r.d, r.e, r.f, r.g, r.h] := rfl

end Sys2Proof.Machine

/-! ### The settled statements -/

namespace Sys2Proof.Proofs

open Sys2Proof.Machine

/-- Settles O22: the seed is the lane's, the rounds those of a loaded lane; R101's two values are closed facts. -/
theorem compressionFunctionIsSixtyFourRounds : Obligations.CompressionFunctionIsSixtyFourRounds := by
  refine ⟨fun v b => ?_, by decide +kernel, by decide +kernel⟩
  rw [cf, chainWords_feedForward, rounds64_expand]
  rfl

/-- Settles O23. -/
theorem everyBackendComputesCf : Obligations.EveryBackendComputesCf := Compression.outputs_run_load

/-- Settles O17: the two bands by definition, the second read bit by bit. -/
theorem bandFunctionFfIsXorThenMajority : Obligations.BandFunctionFfIsXorThenMajority := by
  refine ⟨fun a b c => ⟨fun j hj => ff_of_lt (by omega) a b c, fun j hlo _ => ⟨ff_of_ge hlo a b c, fun i _ => ?_⟩⟩,
    ff_self_of_ge (Nat.le_refl 16), by decide, by decide⟩
  rw [getLsbD_ff_of_ge hlo]
  exact majority_iff_two_le _ _ _

/-- Settles O18: the two bands by definition, the second read bit by bit. -/
theorem bandFunctionGgIsXorThenChoose : Obligations.BandFunctionGgIsXorThenChoose :=
  ⟨fun e f g => ⟨fun _ hj => gg_of_lt (Nat.lt_succ_of_le hj) e f g,
      fun _ hlo _ => ⟨gg_of_ge hlo e f g, fun _ => getLsbD_gg_of_ge hlo e f g⟩⟩,
    fun f g => ⟨gg_zero_of_ge (Nat.le_refl 16) f g, gg_allOnes_of_ge (Nat.le_refl 16) f g⟩, by decide, by decide⟩

/-- Settles O20: the table is the rotated constants, and 32 rows apart in the second band the amount and the constant are
the same. -/
theorem tableHoldsTheRotatedConstants : Obligations.TableHoldsTheRotatedConstants := by
  refine ⟨fun j hj => tConst_of_lt (by omega), fun j hlo _ => tConst_of_ge hlo,
    fun j hj => ⟨rfl, ttabAt_eq j (by omega)⟩, rfl, rfl, rfl, fun j hlo hhi => ?_⟩
  have hamount : j % 32 = (j - 32) % 32 := by omega
  rw [ttabAt_eq j (by omega), ttabAt_eq (j - 32) (by omega), tConst_of_ge (by omega), tConst_of_ge (by omega), hamount]

/-- Settles O21: the sequence of assignments reads each register before it overwrites it; the example is a closed fact. -/
theorem roundComputesTheRulesExpressions : Obligations.RoundComputesTheRulesExpressions :=
  ⟨fun _ _ _ _ => ⟨rfl, rfl⟩, by decide⟩

end Sys2Proof.Proofs
end

section
/-!
PROOFS of the family "backends": the records of a COMPRESS payload, the 32 bytes a lane answers for its record, and what the
three COMPRESS commands answer with them.
-/

namespace Sys2Proof.Machine

/-! ### Compress records (R73, R74) -/

/-- A lane's record is read from that lane's 96 bytes alone. -/
theorem recordAt_eq_recordAt_payRead (pay : List Byte) (l : Nat) :
    recordAt pay l = recordAt (payRead pay (recordLen * l) recordLen) 0 := by
  simp [recordAt, payRead, recordLen, List.take_take, List.drop_take, List.drop_drop]

/-- Bytes behind a record do not change it. -/
theorem recordAt_zero_append {r : List Byte} (h : r.length = recordLen) (more : List Byte) :
    recordAt (r ++ more) 0 = recordAt r 0 := by
  rw [recordAt_eq_recordAt_payRead, payRead, Nat.mul_zero, List.drop_zero, List.take_left' h]

/-- The records of a payload put together from whole records. -/
theorem recordsOf_flatten {recs : List (List Byte)} (h : ∀ r ∈ recs, r.length = recordLen) :
    recordsOf recs.flatten recs.length = recs.map fun r => recordAt r 0 := by
  induction recs with
  | nil => rfl
  | cons r recs ih =>
    obtain ⟨hr, hrecs⟩ := List.forall_mem_cons.1 h
    rw [recordsOf, List.length_cons, List.range_succ_eq_map, List.map_cons, List.map_map, List.map_cons, ← ih hrecs]
    exact congrArg₂ List.cons (recordAt_zero_append hr _) (List.map_congr_left fun l _ => recordAt_succ hr _ l)

/-! ### The bytes a lane answers (R72, R111, R116) -/

/-- The 32 response bytes for lane `l`'s record; `exec_compressS_next`, `exec_compressU_next` and `execCompressVWith_next` say
that the three commands answer them. -/
def laneAnswer (pay : List Byte) (l : Nat) : List Byte := stateEnc (cf (recordAt pay l).1 (recordAt pay l).2)

@[simp] theorem laneAnswer_length (pay : List Byte) (l : Nat) : (laneAnswer pay l).length = 32 := stateEnc_length _

/-- Lanes with the same 96 bytes, of any payloads and at any index, answer the same bytes. -/
theorem laneAnswer_congr {pay pay' : List Byte} {l l' : Nat}
    (h : payRead pay (recordLen * l) recordLen = payRead pay' (recordLen * l') recordLen) :
    laneAnswer pay l = laneAnswer pay' l' := by
  rw [laneAnswer, recordAt_eq_recordAt_payRead, h, ← recordAt_eq_recordAt_payRead, laneAnswer]

/-- A single record is its image, the first 32 bytes, and its block, the rest. -/
theorem laneAnswer_zero {r : List Byte} (h : r.length = recordLen) :
    laneAnswer r 0 = stateEnc (cf (stateDec (r.take 32)) (blockOf (r.drop 32))) := by
  have hblock : payRead r 32 64 = r.drop 32 := List.take_of_length_le (by rw [List.length_drop, h]; decide)
  rw [laneAnswer, recordAt, Nat.mul_zero, Nat.zero_add, hblock]
  rfl

theorem laneAnswer_image_append_block {image block : List Byte} (himage : image.length = 32) (hblock : block.length = 64) :
    laneAnswer (image ++ block) 0 = stateEnc (cf (stateDec image) (blockOf block)) := by
  rw [laneAnswer_zero (by rw [List.length_append, himage, hblock]), List.take_left' himage, List.drop_left' himage]

/-- Every backend answers its lanes' bytes, lane 0 first. -/
theorem outputs_recordsOf (bk : Backend) (pay : List Byte) (n : Nat) :
    ((Compression.load (recordsOf pay n)).run bk).outputs.flatMap stateEnc = (List.range n).flatMap (laneAnswer pay) := by
  rw [Compression.outputs_run_load, recordsOf, List.map_map, List.flatMap_map]
  rfl

theorem outputs_recordAt_zero (bk : Backend) (pay : List Byte) :
    ((Compression.load [recordAt pay 0]).run bk).outputs.flatMap stateEnc = laneAnswer pay 0 :=
  (outputs_recordsOf bk pay 1).trans (List.append_nil _)

/-- The `l`-th piece of pieces of one length. -/
theorem take_drop_flatMap_range {f : Nat → List Byte} {k l n : Nat} (hf : ∀ i, (f i).length = k) (h : l < n) :
    (((List.range n).flatMap f).drop (k * l)).take k = f l := by
  obtain ⟨m, rfl⟩ := Nat.exists_eq_add_of_le (Nat.succ_le_of_lt h)
  have hfront : ((List.range l).flatMap f).length = k * l := by simp [List.length_flatMap, hf, Nat.mul_comm]
  rw [List.range_add, List.range_succ, List.flatMap_append, List.flatMap_append, List.append_assoc,
    List.drop_left' hfront, List.flatMap_singleton, List.take_left' (hf l)]

/-- The answers for records put together are the answers for each of them, in order (R118). -/
theorem laneAnswers_flatten {recs : List (List Byte)} (h : ∀ r ∈ recs, r.length = recordLen) :
    (List.range recs.length).flatMap (laneAnswer recs.flatten) = recs.flatMap fun r => laneAnswer r 0 := by
  rw [← outputs_recordsOf .vector, recordsOf_flatten h, Compression.outputs_run_load, List.map_map, List.flatMap_map]
  rfl

/-! ### What the COMPRESS commands answer (R110, R112, R113, R115) -/

@[simp] theorem rspPayload_rspPacket (status opc : Byte) (pl : List Byte) : rspPayload (rspPacket status opc pl) = pl := rfl

theorem exec_compressS_next {pay : List Byte} (h : pay.length = recordLen) (s : State) :
    exec (.compressS pay) s = .next (s.respondOk 0x10#8 (laneAnswer pay 0)) := by
  rcases execCompressS_cases pay s with ⟨-, he⟩ | ⟨hlen, -⟩
  · rw [exec, he, outputs_recordAt_zero]
  · exact absurd h hlen

theorem exec_compressU_next {pay : List Byte} (h : pay.length = recordLen) (s : State) :
    exec (.compressU pay) s = .next (s.respondOk 0x11#8 (laneAnswer pay 0)) := by
  rcases execCompressU_cases pay s with ⟨-, he⟩ | ⟨hlen, -⟩
  · rw [exec, he, outputs_recordAt_zero]
  · exact absurd h hlen

/-- The lane count of the core does not show in the answer (R121). -/
theorem execCompressVWith_next {c : Config} {n : Byte} {pay : List Byte} (h : Instr.wf c (.compressV n pay) = true)
    (s : State) :
    execCompressVWith c n pay s = .next (s.respondOk 0x12#8 ((List.range n.toNat).flatMap (laneAnswer pay))) := by
  rcases execCompressVWith_cases c n pay s with ⟨-, he⟩ | ⟨hbad, -⟩
  · rw [he, outputs_recordsOf]
  · rw [h] at hbad; nomatch hbad

/-- On this hardware, 1 to 8 lanes. -/
theorem exec_compressV_next {n : Byte} {pay : List Byte} (hpos : 1 ≤ n.toNat) (hmax : n.toNat ≤ 8)
    (hlen : pay.length = recordLen * n.toNat) (s : State) :
    exec (.compressV n pay) s = .next (s.respondOk 0x12#8 ((List.range n.toNat).flatMap (laneAnswer pay))) :=
  execCompressVWith_next (Instr.wf_compressV_iff.2 ⟨hpos, hmax, hlen⟩) s

/-- The `l`-th 32 bytes of a COMPRESS.V's response payload are lane `l`'s. -/
theorem exec_compressV_lane {n : Byte} {pay r : List Byte} {l : Nat} {s t : State} (hl : l < n.toNat) (hmax : n.toNat ≤ 8)
    (hlen : pay.length = recordLen * n.toNat) (ht : exec (.compressV n pay) s = .next t) (hr : t.rsp = s.rsp ++ [r]) :
    ((rspPayload r).drop (32 * l)).take 32 = laneAnswer pay l := by
  rw [exec_compressV_next (Nat.one_le_of_lt hl) hmax hlen] at ht
  cases ht
  rw [State.respondOk_rsp, List.append_cancel_left_eq, List.singleton_inj] at hr
  rw [← hr, rspPayload_rspPacket, take_drop_flatMap_range (laneAnswer_length pay) hl]

/-- Commands COMPRESS.S one after another give one response each, in order. -/
theorem execAll_compressS {recs : List (List Byte)} (h : ∀ r ∈ recs, r.length = recordLen) (s : State) :
    ∃ t, execAll (recs.map .compressS) s = .next t ∧
      t.rsp = s.rsp ++ recs.map fun r => rspPacket 0x00#8 0x10#8 (laneAnswer r 0) := by
  induction recs generalizing s with
  | nil => exact ⟨s, rfl, (List.append_nil _).symm⟩
  | cons r recs ih =>
    obtain ⟨hr, hrecs⟩ := List.forall_mem_cons.1 h
    obtain ⟨t, ht, hrsp⟩ := ih hrecs (s.respondOk 0x10#8 (laneAnswer r 0))
    exact ⟨t, (execAll_cons (exec_compressS_next hr s) _).trans ht, by rw [hrsp, State.respondOk_rsp, List.append_assoc]; rfl⟩

/-- No COMPRESS command starts a hash or feeds one, so it only responds, and alike in every state. -/
theorem exec_compress_responds {i : Instr} {pay : List Byte} {n : Byte}
    (h : i = .compressS pay ∨ i = .compressU pay ∨ i = .compressV n pay) :
    ∃ status pl, ∀ s, exec i s = .next (s.respond status i.opcode pl) := by
  have hinit : ∀ bk, i ≠ .init bk := by rcases h with rfl | rfl | rfl <;> exact fun _ => nofun
  have hfeed (s : State) : ¬ FeedsIn i s := by rcases h with rfl | rfl | rfl <;> simp [FeedsIn]
  obtain ⟨status, pl, hr⟩ := exec_responds hinit
  exact ⟨status, pl, fun s => hr s (hfeed s)⟩

end Sys2Proof.Machine

/-! ### The settled statements -/

namespace Sys2Proof.Proofs

open Sys2Proof.Machine

/-- Settles O10: the bytes read are the command's own packet, which every core that has its lanes reads back; and the answer
does not name the lane count. -/
theorem laneCountOnlyGatesHeaders : Obligations.LaneCountOnlyGatesHeaders := by
  refine ⟨fun c c' bytes rest i hd hwf => ?_, fun c c' n pay s hwf hwf' => ?_⟩
  · obtain ⟨-, rfl⟩ := encodeOfDecodeIsThePacket c bytes i rest hd
    exact decodeWith_encode_append hwf rest
  · rw [execCompressVWith_next hwf, execCompressVWith_next hwf']

/-- Settles O25. -/
theorem compressSReturnsCf : Obligations.CompressSReturnsCf := by
  intro s pay hlen
  rw [exec_compressS_next hlen, laneAnswer_zero hlen]
  rfl

/-- Settles O26. -/
theorem compressUReturnsCf : Obligations.CompressUReturnsCf := by
  intro s pay hlen
  rw [exec_compressU_next hlen, laneAnswer_zero hlen]
  rfl

/-- Settles O27: `exec` is the first clause at this hardware's lane count. -/
theorem compressVReturnsEachLanesCf : Obligations.CompressVReturnsEachLanesCf :=
  ⟨fun _ s _ _ hpos hmax hlen => execCompressVWith_next (Instr.wf_compressV_iff.2 ⟨hpos, hmax, hlen⟩) s,
    fun s _ _ hpos hmax hlen => ⟨_, exec_compressV_next hpos hmax hlen s, exec_compressV_next hpos hmax hlen s⟩⟩

/-- Settles O28: each of the three answers is the lane answer of the record, and the record is its image and its block. -/
theorem backendsAnswerTheSameBytes : Obligations.BackendsAnswerTheSameBytes := by
  intro s image block n pay l himage hblock hpos hmax hlen hl hrecord
  have hanswer := laneAnswer_image_append_block himage hblock
  have hsingle : (image ++ block).length = recordLen := by rw [List.length_append, himage, hblock]
  have hlane : laneAnswer pay l = laneAnswer (image ++ block) 0 :=
    laneAnswer_congr (hrecord.trans (List.take_of_length_le hsingle.le).symm)
  have hv := exec_compressV_next hpos hmax hlen s
  refine ⟨_, _, _, _, _, _, exec_compressS_next hsingle s, rfl, exec_compressU_next hsingle s, rfl, hv, rfl, hanswer, hanswer, ?_⟩
  rw [exec_compressV_lane hl hmax hlen hv rfl, hlane, hanswer]

/-- Settles O29: both slices are lane answers, of the same 96 bytes. -/
theorem laneOutputDependsOnItsOwnRecord : Obligations.LaneOutputDependsOnItsOwnRecord := by
  intro s n n' pay pay' l l' t t' r r' hlen hlen' hl hl' hmax hmax' hrecord ht hr ht' hr'
  rw [exec_compressV_lane hl hmax hlen ht hr, exec_compressV_lane hl' hmax' hlen' ht' hr', laneAnswer_congr hrecord]

/-- Settles O30: both sides are the lane answers of the records, in order. -/
theorem vectorBatchEqualsSequentialCalls : Obligations.VectorBatchEqualsSequentialCalls := by
  intro s n recs hn hpos hmax hrecs
  have hlen : recs.flatten.length = recordLen * n.toNat := by rw [flatten_length_of_records hrecs, hn]
  obtain ⟨ts, hts, hrsp⟩ := execAll_compressS hrecs s
  refine ⟨_, _, ts, exec_compressV_next hpos hmax hlen s, rfl, hts, ?_, ?_⟩
  · rw [hrsp, List.length_append, List.length_map, hn]
  · rw [hrsp, List.drop_left, List.flatMap_map, rspPayload_rspPacket, ← hn]
    exact laneAnswers_flatten hrecs

/-- Settles O31. -/
theorem compressCommandsIgnoreTheContext : Obligations.CompressCommandsIgnoreTheContext := by
  intro i s s' pay n hi hrsp
  obtain ⟨status, pl, hr⟩ := exec_compress_responds hi
  exact ⟨_, _, hr s, hr s', by rw [State.respond_rsp, State.respond_rsp, hrsp], rfl, rfl, rfl, rfl⟩

end Sys2Proof.Proofs
end

section
/-!
PROOFS of the family "engine": the digest word by word, streams and the padding that completes them, every field after Feed,
the source's step-by-step ABSORB, sequences of ABSORBs, and the lifecycle.
-/

namespace Sys2Proof.Machine

/-! ### The digest (R133) -/

/-- The words of a state are read from its image, word `i` at offset `4i`. -/
theorem chainWords_eq_wordAt (v : Chain) : chainWords v = (List.range 8).map fun i => wordAt (stateEnc v) (4 * i) :=
  congrArg chainWords (stateDec_stateEnc v).symm

theorem take_drop_stateEnc (v : Chain) {i : Nat} (h : i < 8) :
    ((stateEnc v).drop (4 * i)).take 4 = be32enc ((chainWords v).getD i 0) := by
  have hword : (chainWords v).getD i 0 = wordAt (stateEnc v) (4 * i) := by
    rw [chainWords_eq_wordAt]
    simp [List.getD_eq_getElem?_getD, h]
  rw [hword, be32enc_wordAt _ (by rw [stateEnc_length]; omega)]

/-! ### Streams and padding (R129, R131) -/

/-- Nothing is left behind whole blocks. -/
theorem streamRest_of_whole_blocks {m : List Byte} (h : m.length % 64 = 0) : streamRest m = [] :=
  List.drop_eq_nil_of_le (by omega)

/-- A stream shorter than a block is its own rest. -/
theorem streamRest_of_lt {m : List Byte} (h : m.length < 64) : streamRest m = m := by
  rw [streamRest, Nat.div_eq_of_lt h, Nat.mul_zero, List.drop_zero]

/-- Behind whole blocks a stream is chained from where they have got to. -/
theorem chainBlocks_append_of_whole_blocks {m : List Byte} (h : m.length % 64 = 0) (v : Chain) (data : List Byte) :
    chainBlocks ((m ++ data).length / 64) v (m ++ data) =
      chainBlocks (data.length / 64) (chainBlocks (m.length / 64) v m) data := by
  rw [← chainBlocks_stream, streamRest_of_whole_blocks h, List.nil_append]

theorem streamRest_append_of_whole_blocks {m : List Byte} (h : m.length % 64 = 0) (data : List Byte) :
    streamRest (m ++ data) = streamRest data := by
  rw [← streamRest_append, streamRest_of_whole_blocks h, List.nil_append]

theorem streamRest_length (m : List Byte) : (streamRest m).length = m.length % 64 := feed_rest_length m

theorem padBytes_length (idx : Nat) (l : BitVec 64) : (padBytes idx l).length = padZeros idx + 9 := by
  simp only [padBytes, List.length_append, List.length_singleton, List.length_replicate, be64enc_length]
  omega

/-- The padding completes the last block, or that block and one more (R131). -/
theorem add_padBytes_length {idx : Nat} (h : idx < 64) (l : BitVec 64) :
    idx + (padBytes idx l).length = 64 * (if idx ≤ 55 then 1 else 2) := by
  rw [padBytes_length, padZeros]
  split <;> omega

theorem padBytes_of_le {idx : Nat} (h : idx ≤ 55) (l : BitVec 64) :
    padBytes idx l = 0x80#8 :: (List.replicate (55 - idx) 0#8 ++ be64enc l) := by
  rw [padBytes, padZeros, if_pos h]
  rfl

theorem padBytes_of_ge {idx : Nat} (h : 56 ≤ idx) (l : BitVec 64) :
    padBytes idx l = 0x80#8 :: (List.replicate (119 - idx) 0#8 ++ be64enc l) := by
  rw [padBytes, padZeros, if_neg (by omega)]
  rfl

/-- The length field is the last 8 bytes. -/
theorem drop_padBytes (idx : Nat) (l : BitVec 64) : (padBytes idx l).drop ((padBytes idx l).length - 8) = be64enc l := by
  rw [padBytes]
  exact List.drop_left' (by simp)

theorem pad_length (n : Nat) : n % 64 + (pad n).length = 64 * (if n % 64 ≤ 55 then 1 else 2) :=
  add_padBytes_length (Nat.mod_lt n (by decide)) _

/-- A padded message is whole blocks. -/
theorem add_pad_length_mod (n : Nat) : (n + (pad n).length) % 64 = 0 := by
  have hpad := pad_length n
  omega

theorem append_pad_length_mod (m : List Byte) : (m ++ pad m.length).length % 64 = 0 := by
  rw [List.length_append]
  exact add_pad_length_mod m.length

/-! ### What the invariant says of BUF (R23) -/

/-- Under the invariant BUF holds the pending bytes and no others. -/
theorem State.Inv.read_eq {s : State} {p : List Byte} (h : s.Inv) (hp : s.pending = some p) (a : Nat) :
    s.buf.read a = p[a]? := by
  by_cases ha : a < s.idx.val
  · exact State.read_of_pending hp ha
  · have hnone : s.buf.read a = none := by
      rw [← Option.not_isSome_iff_eq_none, h.bufHoldsPending, decide_eq_true_iff]
      exact ha
    rw [hnone, List.getElem?_eq_none (by rw [State.pending_length hp]; omega)]

theorem State.pending_length_lt {s : State} {p : List Byte} (hp : s.pending = some p) : p.length < 64 := by
  rw [State.pending_length hp]
  exact s.idx.isLt

/-- The remainder stored over a canonical BUF is canonical. -/
theorem State.wf_storePending {s : State} (h : s.buf.wf) (rest : List Byte) : (s.storePending rest).buf.wf :=
  Memory.wf_forgetFrom (Memory.wf_writeBytes h 0 rest) _

/-- Storing the bytes that are pending changes nothing. -/
theorem State.Inv.storePending_pending {s : State} {p : List Byte} (h : s.Inv) (hp : s.pending = some p) :
    s.storePending p = s := by
  have hlt := State.pending_length_lt hp
  have hidx : (s.storePending p).idx = s.idx :=
    Fin.ext ((s.storePending_idx_val p hlt).trans (State.pending_length hp))
  have hbuf : (s.storePending p).buf = s.buf :=
    Memory.ext_read (State.wf_storePending h.bufCanonical p) h.bufCanonical fun a => by
      rw [s.read_storePending p hlt, h.read_eq hp]
  calc s.storePending p
      = { s with idx := (s.storePending p).idx, buf := (s.storePending p).buf } := rfl
    _ = s := by rw [hidx, hbuf]

/-! ### Every field after Feed, ABSORB and FINAL (R127, R129, R132) -/

@[simp] theorem State.feedAfter_nbits (p data : List Byte) (s : State) : (s.feedAfter p data).nbits = s.nbits := by
  simp [State.feedAfter]

theorem State.feedAfter_idx_val (p data : List Byte) (s : State) :
    (s.feedAfter p data).idx.val = (p ++ data).length % 64 := by
  rw [← streamRest_length]
  exact State.storePending_idx_val _ _ (by rw [feed_rest_length]; omega)

/-- BUF after Feed: the remainder, and no other byte. -/
theorem State.read_feedAfter (p data : List Byte) (s : State) (a : Nat) :
    (s.feedAfter p data).buf.read a = (streamRest (p ++ data))[a]? :=
  State.read_storePending _ _ (by rw [feed_rest_length]; omega) a

/-- Feed keeps the canonical form. -/
theorem State.wf_feedAfter {s : State} (h : s.buf.wf) (p data : List Byte) : (s.feedAfter p data).buf.wf :=
  State.wf_storePending (by rwa [State.compressBlocks_buf]) _

/-- Feed that completes no block only stores. -/
theorem State.feedAfter_of_lt {p data : List Byte} (h : (p ++ data).length < 64) (s : State) :
    s.feedAfter p data = s.storePending (p ++ data) := by
  rw [State.feedAfter, Nat.div_eq_of_lt h]
  rfl

@[simp] theorem State.absorbed_nbits (p pay : List Byte) (s : State) :
    (s.absorbed p pay).nbits = s.nbits + BitVec.ofNat 64 (8 * pay.length) := by
  simp [State.absorbed]

theorem State.absorbed_v (p pay : List Byte) (s : State) :
    (s.absorbed p pay).v = chainBlocks ((p ++ pay).length / 64) s.v (p ++ pay) :=
  State.feedAfter_v p pay (s.countBytes pay.length)

theorem State.absorbed_idx_val (p pay : List Byte) (s : State) :
    (s.absorbed p pay).idx.val = (p ++ pay).length % 64 :=
  State.feedAfter_idx_val p pay (s.countBytes pay.length)

theorem State.read_absorbed (p pay : List Byte) (s : State) (a : Nat) :
    (s.absorbed p pay).buf.read a = (streamRest (p ++ pay))[a]? :=
  State.read_feedAfter p pay (s.countBytes pay.length) a

/-- BUF after an ABSORB that completes no block: the payload behind the bytes that were pending. -/
theorem State.read_absorbed_of_lt {p pay : List Byte} (h : (p ++ pay).length < 64) (s : State) (a : Nat) :
    (s.absorbed p pay).buf.read a = (p ++ pay)[a]? := by
  rw [State.read_absorbed, streamRest_of_lt h]

theorem State.pending_absorbed (p pay : List Byte) (s : State) :
    (s.absorbed p pay).pending = some (streamRest (p ++ pay)) :=
  State.pending_feedAfter p pay _

theorem State.wf_absorbed {s : State} (h : s.buf.wf) (p pay : List Byte) : (s.absorbed p pay).buf.wf :=
  State.wf_feedAfter (s := s.countBytes pay.length) h p pay

theorem State.Inv.absorbed {s : State} {p : List Byte} (h : s.Inv) (hp : s.pending = some p) (pay : List Byte) :
    (s.absorbed p pay).Inv :=
  (h.feedAfter hp pay).respondOk _ _

/-- ABSORB of nothing only responds. -/
theorem State.Inv.absorbed_nil {s : State} {p : List Byte} (h : s.Inv) (hp : s.pending = some p) :
    s.absorbed p [] = s.respondOk 0x02#8 [] := by
  have hcount : s.countBytes 0 = s := by simp [State.countBytes]
  rw [State.absorbed, List.length_nil, hcount, State.feedAfter_of_lt (by simpa using State.pending_length_lt hp),
    List.append_nil, h.storePending_pending hp]

/-- The padding that FINAL feeds completes the stream: one block for IDX ≤ 55, two otherwise. -/
theorem State.pending_padBytes_length {s : State} {p : List Byte} (hp : s.pending = some p) (l : BitVec 64) :
    (p ++ padBytes s.idx.val l).length = 64 * (if s.idx.val ≤ 55 then 1 else 2) := by
  rw [List.length_append, State.pending_length hp, add_padBytes_length s.idx.isLt]

/-- FINAL leaves nothing pending. -/
theorem State.streamRest_pending_padBytes {s : State} {p : List Byte} (hp : s.pending = some p) (l : BitVec 64) :
    streamRest (p ++ padBytes s.idx.val l) = [] :=
  streamRest_of_whole_blocks (by rw [State.pending_padBytes_length hp, Nat.mul_mod_right])

theorem State.finished_v {s : State} {p : List Byte} (hp : s.pending = some p) :
    (s.finished p).v = chainBlocks (if s.idx.val ≤ 55 then 1 else 2) s.v (p ++ padBytes s.idx.val s.nbits) := by
  have hv : (s.finished p).v = (s.padded p).v := rfl
  rw [hv, State.padded, State.feedAfter_v, State.countBytes_v, State.pending_padBytes_length hp,
    Nat.mul_div_cancel_left _ (by decide)]

theorem State.finished_nbits (p : List Byte) (s : State) :
    (s.finished p).nbits = s.nbits + BitVec.ofNat 64 (8 * (padBytes s.idx.val s.nbits).length) := by
  simp [State.finished, State.padded]

theorem State.finished_idx {s : State} {p : List Byte} (hp : s.pending = some p) : (s.finished p).idx = 0 := by
  have hidx : (s.finished p).idx = (s.padded p).idx := rfl
  refine Fin.ext ?_
  rw [hidx, State.padded, State.feedAfter_idx_val, State.pending_padBytes_length hp, Nat.mul_mod_right]
  rfl

theorem State.read_finished {s : State} {p : List Byte} (hp : s.pending = some p) (a : Nat) :
    (s.finished p).buf.read a = none := by
  have hbuf : (s.finished p).buf = (s.padded p).buf := rfl
  rw [hbuf, State.padded, State.read_feedAfter, State.streamRest_pending_padBytes hp, List.getElem?_nil]

/-! ### The source's step-by-step ABSORB (R128) -/

/-- The blocks compressed directly from input are chained as any others. -/
theorem absorbDirect_eq_chainBlocks (n : Nat) (data : List Byte) (v : Chain) :
    absorbDirect n data v = chainBlocks n v data := by
  induction n generalizing data v with
  | zero => rfl
  | succ n ih => exact ih _ _

/-- The first two steps chain and hold what Feed of the `t` input bytes they use does; then whole blocks have been used, or all
of the input. -/
theorem fillBuffer_spec (pay : List Byte) (v : Chain) {p : List Byte} (h : p.length < 64) :
    ∃ t, fillBuffer pay { v := v, held := p } =
        ({ v := chainBlocks ((p ++ pay.take t).length / 64) v (p ++ pay.take t), held := streamRest (p ++ pay.take t) }, t) ∧
      ((p ++ pay.take t).length % 64 = 0 ∨ pay.length ≤ t) := by
  by_cases hempty : p.length = 0
  · obtain rfl := List.length_eq_zero_iff.1 hempty
    exact ⟨0, by simp [fillBuffer, chainBlocks, streamRest], .inl rfl⟩
  refine ⟨min pay.length (64 - p.length), ?_⟩
  rw [fillBuffer, if_neg hempty]
  generalize ht : min pay.length (64 - p.length) = t
  have hheld : (p ++ pay.take t).length = p.length + t := by rw [List.length_append, List.length_take]; omega
  by_cases hfull : (p ++ pay.take t).length = 64
  · have hwhole : (p ++ pay.take t).length % 64 = 0 := by rw [hfull]
    refine ⟨?_, .inl hwhole⟩
    rw [streamRest_of_whole_blocks hwhole, hfull, Nat.div_self (by decide), chainBlocks, List.take_of_length_le hfull.le]
    exact if_pos hfull
  · have hlt : (p ++ pay.take t).length < 64 := by omega
    refine ⟨?_, .inr (by omega)⟩
    rw [streamRest_of_lt hlt, Nat.div_eq_of_lt hlt]
    exact if_neg hfull

/-- The step-by-step ABSORB chains and holds what Feed does. -/
theorem absorbStepwise_eq (pay : List Byte) (v : Chain) {p : List Byte} (h : p.length < 64) :
    absorbStepwise pay { v := v, held := p } =
      { v := chainBlocks ((p ++ pay).length / 64) v (p ++ pay), held := streamRest (p ++ pay) } := by
  obtain ⟨t, hfill, hdone⟩ := fillBuffer_spec pay v h
  have hstream : p ++ pay = p ++ pay.take t ++ pay.drop t := by rw [List.append_assoc, List.take_append_drop]
  simp only [absorbStepwise, hfill, absorbDirect_eq_chainBlocks]
  rcases hdone with hwhole | hused
  · rw [hstream, chainBlocks_append_of_whole_blocks hwhole, streamRest_append_of_whole_blocks hwhole,
      streamRest_of_whole_blocks hwhole]
    rfl
  · rw [List.drop_eq_nil_of_le hused, List.take_of_length_le hused]
    exact congrArg (Absorbing.mk _) (List.append_nil _)

/-! ### Sequences of ABSORBs (R130) -/

/-- Two ABSORBs leave the context that one ABSORB of both payloads leaves. -/
theorem State.context_absorbed_absorbed {s : State} (h : s.buf.wf) (p a b : List Byte) :
    ((s.absorbed p a).absorbed (streamRest (p ++ a)) b).context = (s.absorbed p (a ++ b)).context := by
  have hrest : streamRest (streamRest (p ++ a) ++ b) = streamRest (p ++ (a ++ b)) := by
    rw [streamRest_append, List.append_assoc]
  simp only [State.context, Context.mk.injEq]
  refine ⟨?_, ?_, ?_, ?_, ?_, ?_⟩
  · rw [State.absorbed_v, State.absorbed_v, State.absorbed_v, chainBlocks_stream, List.append_assoc]
  · rw [State.absorbed_nbits, State.absorbed_nbits, State.absorbed_nbits, List.length_append, Nat.mul_add, BitVec.ofNat_add,
      BitVec.add_assoc]
  · refine Memory.ext_read (State.wf_absorbed (State.wf_absorbed h p a) _ b) (State.wf_absorbed h p _) fun x => ?_
    rw [State.read_absorbed, State.read_absorbed, hrest]
  · refine Fin.ext ?_
    rw [State.absorbed_idx_val, State.absorbed_idx_val, ← streamRest_length, ← streamRest_length, hrest]
  · rw [State.absorbed_st, State.absorbed_st, State.absorbed_st]
  · rw [State.absorbed_bksel, State.absorbed_bksel, State.absorbed_bksel]

/-- ABSORBs one after another leave the context that one ABSORB of the concatenation leaves. -/
theorem execAll_absorbs {s : State} {p : List Byte} (h : s.Inv) (hst : s.st = .active) (hp : s.pending = some p)
    (ps : List (List Byte)) :
    ∃ t, execAll (ps.map .absorb) s = .next t ∧ t.context = (s.absorbed p ps.flatten).context := by
  induction ps generalizing s p with
  | nil =>
    rw [List.flatten_nil, h.absorbed_nil hp]
    exact ⟨s, rfl, rfl⟩
  | cons a ps ih =>
    obtain ⟨t, ht, hctx⟩ := ih (h.absorbed hp a) ((s.absorbed_st p a).trans hst) (s.pending_absorbed p a)
    refine ⟨t, (execAll_cons (exec_absorb_of_pending a hst hp) _).trans ht, ?_⟩
    rw [hctx, State.context_absorbed_absorbed h.bufCanonical, List.flatten_cons]

/-! ### The lifecycle (R125) -/

/-- INIT leaves the same context from every state. -/
theorem State.context_started (bk : Backend) (s s' : State) : (s.started bk).context = (s'.started bk).context := by
  simp [State.context, State.started, State.setFill]

/-- A command that neither starts a hash nor feeds one leaves ST, by the table as in the model. -/
theorem lifecycle_st_of_not_feedsIn {i : Instr} {s : State} (hinit : ∀ bk, i ≠ .init bk) (hfeed : ¬ FeedsIn i s) :
    (lifecycle i s.st).1 = s.st := by
  cases i with
  | init bk => exact absurd rfl (hinit bk)
  | absorb pay =>
    cases hst : s.st with
    | terminal => rfl
    | active => exact absurd ⟨.inl ⟨pay, rfl⟩, hst⟩ hfeed
  | final =>
    cases hst : s.st with
    | terminal => rfl
    | active => exact absurd ⟨.inr rfl, hst⟩ hfeed
  | compressS pay => rfl
  | compressU pay => rfl
  | compressV n pay => rfl

/-- The STATUS of a well-formed command's response is the table's. -/
theorem status_eq_lifecycle {i : Instr} {s : State} {status : Byte} {pl : List Byte} (hwf : i.wf Config.hw = true)
    (hinv : s.Inv) (h : exec i s = .next (s.respond status i.opcode pl)) : status = (lifecycle i s.st).2 := by
  obtain ⟨t, ht, hans⟩ := exec_answered hwf hinv
  rw [h] at ht
  cases ht
  obtain ⟨r, -, hrsp, -, hstatus, -⟩ := hans.exists_response
  rw [State.respond_rsp, List.append_cancel_left_eq, List.singleton_inj] at hrsp
  rw [← hstatus, ← hrsp, rspStatus_rspPacket]

end Sys2Proof.Machine

/-! ### The settled statements -/

namespace Sys2Proof.Proofs

open Sys2Proof.Machine

/-- Settles O33: INIT's next state names nothing of the old state but the ports. -/
theorem initErasesTheOldContext : Obligations.InitErasesTheOldContext := by
  intro s s' bk hcmd hrsp
  exact ⟨s.started bk, exec_init bk s, by rw [State.started_eq_of_ports bk hcmd hrsp, exec_init],
    .of_empty (s.started_buf bk) rfl rfl rfl⟩

/-- Settles O34, field by field. -/
theorem absorbFeedsTheStream : Obligations.AbsorbFeedsTheStream := fun s pay p hst hp =>
  ⟨_, exec_absorb_of_pending pay hst hp, s.absorbed_v p pay, s.absorbed_nbits p pay, s.absorbed_idx_val p pay,
    s.pending_absorbed p pay, s.read_absorbed p pay, s.absorbed_st p pay, s.absorbed_bksel p pay, rfl, s.absorbed_cmd p pay,
    s.absorbed_rsp p pay⟩

/-- Settles O35: each case from the fields after ABSORB, with (IDX + LEN) div 64 computed. -/
theorem absorbCornerCases : Obligations.AbsorbCornerCases := by
  refine ⟨fun s hinv hst => ?_, fun s pay hinv hst hlt => ?_, fun s pay hinv hst hfull => ?_, fun s pay hinv hst hmax => ?_⟩ <;>
    obtain ⟨p, hp⟩ := hinv.exists_pending
  · rw [exec_absorb_of_pending [] hst hp, hinv.absorbed_nil hp]
    simp only [State.respondOk, State.respond, hinv.idle]
  · have hplen := State.pending_length hp
    have hlen : (p ++ pay).length = s.idx.val + pay.length := by rw [List.length_append, hplen]
    have hread := State.read_absorbed_of_lt (hlen ▸ hlt) s
    refine ⟨_, exec_absorb_of_pending pay hst hp, ?_, ?_, fun k _ => ?_, fun a ha => ?_⟩
    · rw [State.absorbed_v, hlen, Nat.div_eq_of_lt hlt]; rfl
    · rw [State.absorbed_idx_val, hlen, Nat.mod_eq_of_lt hlt]
    · rw [hread, ← hplen, List.getElem?_append_right (Nat.le_add_right _ _), Nat.add_sub_cancel_left]
    · rw [hread, hinv.read_eq hp]
      by_cases hbelow : a < s.idx.val
      · rw [List.getElem?_append_left (hplen ▸ hbelow)]
      · rw [List.getElem?_eq_none (by omega), List.getElem?_eq_none (by omega)]
  · have hlen : (p ++ pay).length = 64 := by rw [List.length_append, State.pending_length hp, hfull]
    refine ⟨_, exec_absorb_of_pending pay hst hp, by rw [State.absorbed_idx_val, hlen], fun p' hp' => ?_⟩
    obtain rfl : p = p' := Option.some.inj (hp.symm.trans hp')
    rw [State.absorbed_v, hlen, Nat.div_self (by decide), chainBlocks, List.take_of_length_le hlen.le]
    rfl
  · have hidx := s.idx.isLt
    refine ⟨(s.idx.val + pay.length) / 64, by omega, rfl, p, _, hp, exec_absorb_of_pending pay hst hp, ?_⟩
    rw [State.absorbed_v, List.length_append, State.pending_length hp]

/-- Settles O36: NBITS is a 64-bit sum. -/
theorem bitCounterWrapsSilently : Obligations.BitCounterWrapsSilently := by
  intro s pay hinv hst
  obtain ⟨p, hp⟩ := hinv.exists_pending
  have hnbits : (s.absorbed p pay).nbits.toNat = (s.nbits.toNat + 8 * pay.length) % 2 ^ 64 := by
    rw [State.absorbed_nbits, BitVec.toNat_add, BitVec.toNat_ofNat, Nat.add_mod_mod]
  exact ⟨_, exec_absorb_of_pending pay hst hp, hnbits, fun hlt => hnbits.trans (Nat.mod_eq_of_lt hlt)⟩

/-- Settles O37: both chain and hold what `absorbStepwise_eq` says. -/
theorem stepwiseAbsorbAgreesWithFeed : Obligations.StepwiseAbsorbAgreesWithFeed := by
  intro s pay p hst hp
  rw [absorbStepwise_eq pay s.v (State.pending_length_lt hp), streamRest_length]
  exact ⟨_, exec_absorb_of_pending pay hst hp, s.absorbed_v p pay, s.pending_absorbed p pay, s.absorbed_idx_val p pay⟩

/-- Settles O38: every cut leaves the context of one ABSORB of the whole stream. -/
theorem absorbsOfOneStreamLeaveOneContext : Obligations.AbsorbsOfOneStreamLeaveOneContext := by
  refine ⟨fun s ps qs hinv hst hflat => ?_, fun s a b hinv hst => ?_⟩ <;> obtain ⟨p, hp⟩ := hinv.exists_pending
  · obtain ⟨t, ht, hctx⟩ := execAll_absorbs hinv hst hp ps
    obtain ⟨u, hu, hctx'⟩ := execAll_absorbs hinv hst hp qs
    exact ⟨t, u, ht, hu, by rw [hctx, hctx', hflat]⟩
  · obtain ⟨t, ht, hctx⟩ := execAll_absorbs hinv hst hp [a, b]
    refine ⟨t, _, ht, exec_absorb_of_pending (a ++ b) hst hp, hctx.trans ?_⟩
    rw [List.flatten_cons, List.flatten_singleton]

/-- Settles O39. -/
theorem paddingCompletesTheLastBlock : Obligations.PaddingCompletesTheLastBlock := by
  intro n
  have hlen := pad_length n
  refine ⟨add_pad_length_mod n, ?_, ?_, fun h => ⟨padBytes_of_le h _, ?_⟩, fun h => ⟨padBytes_of_ge h _, ?_⟩,
    drop_padBytes _ _⟩
  · rw [pad, padBytes_length]
    exact Nat.le_add_left 9 _
  · split at hlen <;> omega
  · rw [if_pos h] at hlen; omega
  · rw [if_neg (by omega)] at hlen; omega

/-- Settles O40, field by field. -/
theorem finalEmitsTheDigest : Obligations.FinalEmitsTheDigest := fun s p hst hp =>
  ⟨State.pending_padBytes_length hp _, _, exec_final_of_pending hst hp, State.finished_v hp, s.finished_nbits p,
    State.finished_idx hp, State.read_finished hp, rfl, s.finished_bksel p, rfl, s.finished_cmd p, s.finished_rsp p⟩

/-- Settles O42, case by case of what a command can do. -/
theorem lifecycleFollowsTheTable : Obligations.LifecycleFollowsTheTable := by
  refine ⟨fun i s hwf hinv => ?_,
    fun s opc arg len pay rest hlen h hcmd => ⟨_, step_of_illegalHeader hlen hcmd h, rfl, rfl⟩⟩
  obtain ⟨p, hp⟩ := hinv.exists_pending
  have hcase := exec_case i s
  generalize ho : exec i s = o at hcase
  cases hcase with
  | starts bk =>
    refine ⟨_, [], rfl, rfl, rfl, fun bk' hbk s' => ?_, nofun, by simp [Instr.opcode]⟩
    cases hbk
    exact ⟨_, exec_init bk s', State.context_started bk s' s⟩
  | responds status pl hinit hfeed =>
    refine ⟨_, pl, rfl, (lifecycle_st_of_not_feedsIn hinit hfeed).symm, ?_, fun bk h => absurd h (hinit bk),
      fun hi hst => absurd ⟨.inr hi, hst⟩ hfeed, fun _ => rfl⟩
    rw [State.respond_rsp, status_eq_lifecycle hwf hinv ho]
  | stops hfeed hnone => rw [hp] at hnone; nomatch hnone
  | @absorbs _ p pay hst hp =>
    rw [hst]
    exact ⟨_, [], rfl, (s.absorbed_st p pay).trans hst, s.absorbed_rsp p pay, nofun, nofun, by simp [Instr.opcode]⟩
  | @finishes _ p hst hp =>
    rw [hst]
    exact ⟨_, _, rfl, rfl, s.finished_rsp p, nofun, fun _ _ => rfl, by simp [Instr.opcode]⟩

/-- Settles O43. -/
theorem hashOfAnyCutIsTheClosedForm : Obligations.HashOfAnyCutIsTheClosedForm :=
  fun s bk ps => execAll_init_absorbs_final bk ps s

/-- Settles O47: the message and its padding are whole blocks, so the suffix begins a block. -/
theorem lengthExtensionHolds : Obligations.LengthExtensionHolds := by
  intro c m x f tail
  have hf : f % 64 = 0 := add_pad_length_mod m.length
  have htail : (f + x.length + (pad (f + x.length)).length) % 64 = 0 := add_pad_length_mod _
  have hlen : tail.length = x.length + (pad (f + x.length)).length := List.length_append
  have hstream : m ++ pad m.length ++ x ++ pad (m ++ pad m.length ++ x).length = m ++ pad m.length ++ tail := by
    rw [List.append_assoc _ x, List.length_append, List.length_append]
  refine ⟨hf, by omega, ?_⟩
  rw [hashWith, hashWith, stateDec_stateEnc, hstream, chainBlocks_append_of_whole_blocks (append_pad_length_mod m)]

/-- Settles O13: a word's bytes are those the image gives back. -/
theorem digestIsBigEndianWordByWord : Obligations.DigestIsBigEndianWordByWord :=
  fun v => ⟨stateEnc_length v, fun _ hi => take_drop_stateEnc v hi, rfl, rfl⟩

/-- Settles O32: with IDX = 0 no byte of BUF is left. -/
theorem initCreatesTheContext : Obligations.InitCreatesTheContext := by
  intro c s bk
  refine ⟨?_, rfl⟩
  rw [execInitWith_eq, State.setFill, Fin.val_zero, Memory.forgetFrom_zero]
  rfl

end Sys2Proof.Proofs
end

section
/-!
PROOFS of the family "exceptions": a packet rejected once is rejected alike wherever ST is the same, the core never stops,
and what TERMINAL rejects.
-/

namespace Sys2Proof.Machine

/-! ### What a rejection depends on (R155, R163) -/

/-- A response with a STATUS other than 0x00 is not that of a command that executed. -/
theorem append_rspPacket_ne_of_rspStatus_ne {r : List Byte} (h : rspStatus r ≠ 0x00#8) (opc : Byte) (pl : List Byte)
    (rs : List (List Byte)) : rs ++ [rspPacket 0x00#8 opc pl] ≠ rs ++ [r] := by
  rw [Ne, List.append_cancel_left_eq, List.singleton_inj]
  rintro rfl
  exact h (rspStatus_rspPacket _ _ _)

/-- A rejected command only responds, and with the same response in every state with the same ST. -/
theorem exec_of_rejected {i : Instr} {s t : State} {r : List Byte} (ht : exec i s = .next t) (hrsp : t.rsp = s.rsp ++ [r])
    (hr : rspStatus r ≠ 0x00#8) :
    ∃ status pl, r = rspPacket status i.opcode pl ∧
      ∀ s' : State, s'.st = s.st → exec i s' = .next (s'.respond status i.opcode pl) := by
  have hne := append_rspPacket_ne_of_rspStatus_ne hr
  have hcase := exec_case i s
  rw [ht] at hcase
  cases hcase with
  | starts bk => exact absurd hrsp (hne _ _ _)
  | responds status pl hinit hfeed halike =>
    rw [State.respond_rsp, List.append_cancel_left_eq, List.singleton_inj] at hrsp
    exact ⟨status, pl, hrsp.symm, fun s' hst => halike s' fun ⟨hi, hactive⟩ => hfeed ⟨hi, hst ▸ hactive⟩⟩
  | absorbs pay hst hp => exact absurd ((s.absorbed_rsp _ pay).symm.trans hrsp) (hne _ _ _)
  | finishes hst hp => exact absurd ((s.finished_rsp _).symm.trans hrsp) (hne _ _ _)

/-- A packet with a well-formed command's fields is its encoding. -/
theorem encode_of_hasFields {c : Config} {opc arg : Byte} {len : BitVec 16} {pay : List Byte} {i : Instr}
    (h : i.HasFields c opc arg pay) (hlen : pay.length = len.toNat) : encode i = packet opc arg len pay := by
  obtain ⟨-, rfl, rfl, rfl⟩ := h
  rw [encode, Instr.header, hlen, BitVec.ofNat_toNat, BitVec.setWidth_eq, packet]

/-- A rejected packet gets the same response in every state with the same ST: the operands' check reads the packet alone,
and what follows it reads ST alone. -/
theorem step_of_rejected {s t : State} {opc arg : Byte} {len : BitVec 16} {pay rest r : List Byte}
    (hlen : pay.length = len.toNat) (hcmd : s.cmd = packet opc arg len pay ++ rest) (ht : step s = .next t)
    (hrsp : t.rsp = s.rsp ++ [r]) (hr : rspStatus r ≠ 0x00#8) :
    ∃ status pl, r = rspPacket status opc pl ∧
      ∀ (s' : State) (rest' : List Byte), s'.st = s.st → s'.cmd = packet opc arg len pay ++ rest' →
        step s' = .next ((s'.takePacket rest').respond status opc pl) := by
  by_cases h : IllegalHeader Config.hw opc arg len.toNat
  · rw [step_of_illegalHeader hlen hcmd h] at ht
    cases ht
    rw [State.reject_rsp, State.takePacket_rsp, List.append_cancel_left_eq, List.singleton_inj] at hrsp
    exact ⟨_, [], hrsp.symm, fun _ _ _ hcmd' => step_of_illegalHeader hlen hcmd' h⟩
  · obtain ⟨i, -, hi⟩ := decodeWith_of_legalHeader rest hlen h
    have hstep {s' : State} {rest' : List Byte} (hcmd' : s'.cmd = packet opc arg len pay ++ rest') :
        step s' = exec i (s'.takePacket rest') :=
      Proofs.stepRunsTheDecodedCommand.2 s' i rest' hi.wf (by rw [hcmd', encode_of_hasFields hi hlen])
    obtain ⟨status, pl, hpacket, halike⟩ := exec_of_rejected ((hstep hcmd).symm.trans ht) hrsp hr
    rw [hi.opcode] at hpacket halike
    exact ⟨status, pl, hpacket, fun s' rest' hst hcmd' => (hstep hcmd').trans (halike (s'.takePacket rest') hst)⟩

end Sys2Proof.Machine

/-! ### The settled statements -/

namespace Sys2Proof.Proofs

open Sys2Proof.Machine

/-- Settles O9: the first rejection leaves ST, and with it the response, as it was. -/
theorem rejectedCommandFailsTheSameWayAgain : Obligations.RejectedCommandFailsTheSameWayAgain := by
  intro s t opc arg len pay rest r hlen hcmd ht hrsp hr
  obtain ⟨status, pl, rfl, halike⟩ := step_of_rejected hlen hcmd ht hrsp hr
  rw [halike s _ rfl hcmd] at ht
  cases ht
  exact ⟨_, halike _ rest rfl rfl, rfl, rfl, rfl⟩

/-- Settles O55: the invariant gives every pending byte a value, the one thing a command can lack. -/
theorem coreNeverStops : Obligations.CoreNeverStops := by
  intro s hinv
  obtain ⟨t, ht, -, -⟩ := step_next_of_inv hinv
  exact ⟨hinv.exists_pending, t, ht⟩

/-- Settles O41. -/
theorem terminalRejectsAbsorbAndFinal : Obligations.TerminalRejectsAbsorbAndFinal :=
  fun _ hst => ⟨fun pay => exec_absorb_of_terminal pay hst, exec_final_of_terminal hst⟩

end Sys2Proof.Proofs
end
